-- ==== Sys2Proof/Word.lean ====
section
/-! DEFINITION. The byte and the byte sequence of fixed length (00_scope R9: the data path is one byte wide). -/
namespace Sys2Proof

/-- Every value sent or received on the channel, every argument and every response element (00_scope R9). -/
abbrev Byte := BitVec 8

/-- The text input `req_text[0..254]` of the request port (30_encoding R56). -/
abbrev Text := Vector Byte 255

end Sys2Proof
end

