-- ==== Sys2Proof/Syntax.lean ====
section
/-! DEFINITION. The five commands of the Command Catalog with the operands each one takes from the request
(30_encoding R57, R65; 41_commands R91 to R95). One constructor per row of the opcode table. -/
namespace Sys2Proof

/-- A command with its operands. Operands that a command does not use (30_encoding R66) do not appear. -/
inductive Instr where
  /-- LED_CONTROL(pin, value) (41_commands R91). -/
  | ledControl (pin : Byte) (value : BitVec 1)
  /-- SENSOR_READ(analog_channel) → byte (41_commands R92). -/
  | sensorRead (channel : Byte)
  /-- LED_READ(pin) → byte (41_commands R93). -/
  | ledRead (pin : Byte)
  /-- PRINT(text) → none (41_commands R94). Well formed only up to 255 bytes. -/
  | print (text : List Byte)
  /-- ID_READ() → bytes (41_commands R95). -/
  | idRead
deriving DecidableEq, Repr, Inhabited

end Sys2Proof
end

