-- ==== Sys2Proof/Config.lean ====
section
/-! DEFINITION. What is fixed for the life of an instance (10_state R14): the constants of 00_scope R7 and the
parameters of 00_scope R8. Then the environment's choices (00_scope R12, 30_encoding R74) and the free values:
constants without a body, of which no proof can see a value. -/
namespace Sys2Proof

/-- The ACK sentinel (00_scope R7). -/
def ackSentinel : Byte := 0xF5

/-- The filler sentinel (00_scope R7). -/
def fillerSentinel : Byte := 0xFF

/-- The longest PRINT text (00_scope R7). -/
def printMax : Nat := 255

/-- The command ids 0..4 (30_encoding R57). Ids 5, 6 and 7 name no command and have no constructor. -/
inductive Cmd where
  | ledControl | sensorRead | ledRead | print | idRead
deriving DecidableEq, Repr, Inhabited

/-- Who drives the request port (00_scope R8, 42_sequencer R105). -/
inductive ReqSource where
  | seq | host
deriving DecidableEq, Repr, Inhabited

/-- The order of the bits of a byte on the link: the channel's parameter CH_BIT_ORDER (20_memory R43). -/
inductive BitOrder where
  | msbFirst | lsbFirst
deriving DecidableEq, Repr, Inhabited

/-- One entry of SEQ_ARGS (42_sequencer R111). The text is held as the port holds it: a length of 8 bits and
255 bytes, so that a text of more than 255 bytes does not exist. -/
structure SeqArg where
  a    : Byte
  v    : BitVec 1
  tlen : Byte
  text : Text
deriving DecidableEq, Repr, Inhabited

/-- The parameters of an instance (00_scope R8, 20_memory R43). No step writes them (10_state R14). -/
structure Config where
  /-- OPC_LED_READ. -/
  opcLedRead  : Byte
  /-- OPC_ID_READ. -/
  opcIdRead   : Byte
  /-- ID_LEN, 0..255. -/
  idLen       : Byte
  /-- SETTLE_DELAY, in unspecified units of time. No rule reads it (41_commands R88). -/
  settleDelay : Nat
  /-- REQ_SOURCE. -/
  reqSource   : ReqSource
  /-- SEQ_ARGS[0..3]. -/
  seqArgs     : Vector SeqArg 4
  /-- CH_BIT_ORDER of the channel. No rule of the PHE reads it (20_memory R43). -/
  chBitOrder  : BitOrder
deriving DecidableEq, Repr

/-- The request word REQ with the text input (30_encoding R55, R56). -/
structure Request where
  word : BitVec 20
  text : Text
deriving DecidableEq, Repr, Inhabited

/-- The first word of a request line: the five commands (30_encoding R72) and the two pseudo-requests (R73). -/
inductive LineHead where
  | ledControl | sensorRead | ledRead | print | idRead | ledOn | ledOff
deriving DecidableEq, Repr, Inhabited

/-- An operand of a request line as written (30_encoding R72), before any range is checked. -/
inductive Operand where
  /-- A decimal or hexadecimal number. -/
  | num (n : Nat)
  /-- A quoted text or a bracketed byte list, one number an element. -/
  | text (elems : List Nat)
deriving DecidableEq, Repr, Inhabited

/-- A request line (30_encoding R72). -/
structure ReqLine where
  head     : LineHead
  operands : List Operand
deriving DecidableEq, Repr, Inhabited

/-- What a host read names among the result outputs whose value has no meaning while RES.valid = 0
(10_state R27, 60_exceptions R119 case 3). -/
inductive HostRead where
  | cmd | ack | count
  /-- `RES.data[i]`. -/
  | data (i : Nat)
deriving DecidableEq, Repr, Inhabited

/-- Which agent acts next, and the input it brings (00_scope R12, 60_exceptions R123). -/
inductive Event where
  /-- The PHE (ENG, SEQ or both jointly) takes its enabled step. If the step transceives, CH answers `rx`. -/
  | phe (rx : Byte)
  /-- TRIG_EVENT (42_sequencer R108). -/
  | trig
  /-- HOST writes the request slot (10_state R28). -/
  | offer (req : Request)
  /-- HOST offers the request that a request line stands for (30_encoding R72). -/
  | line (l : ReqLine)
  /-- HOST reads a result output (10_state R27). -/
  | read (r : HostRead)
  /-- RESET (70_reset_and_hazards R131). -/
  | rst
  /-- No agent acts. A run that goes on so while ENG is in a transceiving phase is the hang of 60_exceptions R121. -/
  | quiet
deriving DecidableEq, Repr, Inhabited

/-- Free: the environment's choice where the state lists none, one for each draw. Every order of enabled steps
and every inbound byte is admitted (00_scope R12, 10_state R31). Assumption log 3, 4. -/
opaque Config.nextEvent : Nat → Event

/-- Free: element `i` of what is unspecified after the RESET that made the given draw (70_reset_and_hazards
R132). Assumption log 6. -/
opaque Config.unspecifiedByte : Nat → Nat → Byte

/-- Free: REQ after the RESET that made the given draw (70_reset_and_hazards R132). Assumption log 6. -/
opaque Config.unspecifiedReq : Nat → BitVec 20

/-- Free: SEQ_ARGS, which the spec leaves OPEN (42_sequencer R111). Assumption log 2. -/
opaque Config.openSeqArgs : Vector SeqArg 4

/-- Free: SETTLE_DELAY, for which the spec gives no value (00_scope R8). Assumption log 2. -/
opaque Config.openSettleDelay : Nat

/-- Free: CH_BIT_ORDER, which the spec leaves open (20_memory R43). Assumption log 2. -/
opaque Config.openBitOrder : BitOrder

/-- The instance with the defaults of 00_scope R8. PRESUMED (log 22): 0x52, 0x54 and 10 come from general
knowledge, as the spec says itself. -/
def Config.standard : Config where
  opcLedRead  := 0x52
  opcIdRead   := 0x54
  idLen       := 10
  settleDelay := Config.openSettleDelay
  reqSource   := .seq
  seqArgs     := Config.openSeqArgs
  chBitOrder  := Config.openBitOrder

end Sys2Proof
end

