-- ==== Sys2Proof/Machine/RequestLine.lean ====
section
/-! DEFINITION. What a request line stands for (30_encoding R72, R73). -/
namespace Sys2Proof.Machine

/-- The pseudo-requests: LED_ON is LED_CONTROL with a last operand 1, LED_OFF with a last operand 0 (30_encoding
R73). -/
def expandLine (l : ReqLine) : ReqLine :=
  match l.head with
  | .ledOn      => { head := .ledControl, operands := l.operands ++ [.num 1] }
  | .ledOff     => { head := .ledControl, operands := l.operands ++ [.num 0] }
  | .ledControl => l
  | .sensorRead => l
  | .ledRead    => l
  | .print      => l
  | .idRead     => l

/-- A number of 0..255 as a byte. -/
def byteOperand (n : Nat) : Option Byte := if n < 256 then some (BitVec.ofNat 8 n) else none

/-- The instruction a request line stands for; none where an operand is out of range, missing or extra, or the
text has more than 255 bytes (30_encoding R72, 60_exceptions R119 case 2). -/
def assemble (l : ReqLine) : Option Instr :=
  match (expandLine l).head, (expandLine l).operands with
  | .ledControl, [.num pin, .num value] =>
    if value < 2 then (byteOperand pin).map fun p => .ledControl p (BitVec.ofNat 1 value) else none
  | .sensorRead, [.num channel] => (byteOperand channel).map .sensorRead
  | .ledRead, [.num pin] => (byteOperand pin).map .ledRead
  | .print, [.text elems] => if elems.length ≤ printMax then (elems.mapM byteOperand).map .print else none
  | .idRead, [] => some .idRead
  | _, _ => none

end Sys2Proof.Machine
end

