-- ==== Sys2Proof/Decode.lean ====
section
/-! DEFINITION. The Command Catalog, the opcode encoder and decoder, the request word read and written
(10_state R33; 30_encoding R54 to R60, R65, R66, R70), and the reading of an opcode-table word. -/
namespace Sys2Proof

/-- The 3-bit id of a command (30_encoding R57). -/
def Cmd.id : Cmd → BitVec 3
  | .ledControl => 0
  | .sensorRead => 1
  | .ledRead    => 2
  | .print      => 3
  | .idRead     => 4

/-- The command a 3-bit id names; ids 5, 6 and 7 name none (30_encoding R57, R70). -/
def Cmd.ofId (id : BitVec 3) : Option Cmd :=
  match id.toNat with
  | 0 => some .ledControl
  | 1 => some .sensorRead
  | 2 => some .ledRead
  | 3 => some .print
  | 4 => some .idRead
  | _ => none

/-- The command of an instruction. -/
def Instr.cmd : Instr → Cmd
  | .ledControl _ _ => .ledControl
  | .sensorRead _   => .sensorRead
  | .ledRead _      => .ledRead
  | .print _        => .print
  | .idRead         => .idRead

/-- The opcode column of the Command Catalog: the encoder OPCODE (30_encoding R58, 10_state R33). -/
def Config.opcode (cfg : Config) : Cmd → Byte
  | .ledControl => 0x50
  | .sensorRead => 0x51
  | .ledRead    => cfg.opcLedRead
  | .print      => 0x53
  | .idRead     => cfg.opcIdRead

/-- The settle column of the Command Catalog (10_state R33, R23). -/
def Config.settleOf (_ : Config) : Cmd → Bool
  | .ledControl => false
  | .sensorRead => true
  | .ledRead    => false
  | .print      => false
  | .idRead     => false

/-- The ncap column of the Command Catalog: NCAP (10_state R33, R22). -/
def Config.ncapOf (cfg : Config) : Cmd → Byte
  | .ledControl => 0
  | .sensorRead => 1
  | .ledRead    => 1
  | .print      => 0
  | .idRead     => cfg.idLen

/-- The opcode decoder DECODE, total on bytes; `none` is the spec's NONE (30_encoding R59, R68). -/
def Config.decodeOpcode (cfg : Config) (b : Byte) : Option Cmd :=
  if b = 0x50 then some .ledControl
  else if b = 0x51 then some .sensorRead
  else if b = cfg.opcLedRead then some .ledRead
  else if b = 0x53 then some .print
  else if b = cfg.opcIdRead then some .idRead
  else none

/-- The lookup port of the decoder: `dec_hit`, and `dec_cmd`, which is 0 where `dec_hit` is 0 (30_encoding R59). -/
def Config.decoderPort (cfg : Config) (decIn : Byte) : Bool × BitVec 3 :=
  match cfg.decodeOpcode decIn with
  | some c => (true, c.id)
  | none   => (false, 0)

/-- `REQ[2:0]` (30_encoding R55). -/
def Request.cmdField (r : Request) : BitVec 3 := r.word.extractLsb' 0 3

/-- `REQ[10:3]` (30_encoding R55). -/
def Request.aField (r : Request) : Byte := r.word.extractLsb' 3 8

/-- `REQ[11]` (30_encoding R55). -/
def Request.vField (r : Request) : BitVec 1 := r.word.extractLsb' 11 1

/-- `REQ[19:12]` (30_encoding R55). -/
def Request.tlenField (r : Request) : Byte := r.word.extractLsb' 12 8

/-- The PRINT text `[req_text[0], ..., req_text[tlen-1]]` (30_encoding R56). -/
def Request.textBytes (r : Request) : List Byte := r.text.toList.take r.tlenField.toNat

/-- `REQ = {tlen[7:0], v, a[7:0], cmd[2:0]}` with the text input (30_encoding R55, R56). -/
def Request.ofFields (tlen : Byte) (v : BitVec 1) (a : Byte) (cmd : BitVec 3) (text : Text) : Request where
  word := tlen ++ v ++ a ++ cmd
  text := text

/-- Why a request word names no instruction. -/
inductive DecodeError where
  /-- `REQ.cmd` is 5, 6 or 7 (30_encoding R70). -/
  | invalidCommand (id : BitVec 3)
deriving DecidableEq, Repr

/-- The instruction a request stands for: the operands of 30_encoding R65, the unused fields ignored (R66),
ids 5, 6 and 7 rejected (R70). Total on every request. -/
def decodeRequest (r : Request) : Except DecodeError Instr :=
  match Cmd.ofId r.cmdField with
  | some .ledControl => .ok (.ledControl r.aField r.vField)
  | some .sensorRead => .ok (.sensorRead r.aField)
  | some .ledRead    => .ok (.ledRead r.aField)
  | some .print      => .ok (.print r.textBytes)
  | some .idRead     => .ok .idRead
  | none             => .error (.invalidCommand r.cmdField)

/-- A text laid out on the text input. Elements at or above the length have no meaning (30_encoding R56);
DESIGN CHOICE (log 14): they are 0x00. -/
def padText (bytes : List Byte) : Text := Vector.ofFn fun i => bytes[i.val]?.getD 0

/-- The request of a well-formed instruction: the fields of 30_encoding R55 and R65. DESIGN CHOICE (log 14):
the fields a command does not use, which acceptance ignores (R66), are 0. -/
def encodeRequest : Instr → Request
  | .ledControl pin value => .ofFields 0 value pin Cmd.ledControl.id (padText [])
  | .sensorRead channel   => .ofFields 0 0 channel Cmd.sensorRead.id (padText [])
  | .ledRead pin          => .ofFields 0 0 pin Cmd.ledRead.id (padText [])
  | .print text           => .ofFields (BitVec.ofNat 8 text.length) 0 0 Cmd.print.id (padText text)
  | .idRead               => .ofFields 0 0 0 Cmd.idRead.id (padText [])

/-- The request an opcode-table word stands for: the word is an opcode byte, DECODE names its command, and
every other field of the request is 0. DESIGN CHOICE (log 11): a word that is no opcode stands for a request
with the id 7, which acceptance refuses. -/
def tableRequest (w : Nat) : Request :=
  match if w < 256 then Config.standard.decodeOpcode (BitVec.ofNat 8 w) else none with
  | some c => .ofFields 0 0 0 c.id (padText [])
  | none   => .ofFields 0 0 0 7 (padText [])

/-- The instruction the decoder reads from an opcode-table word: bits 7..0 are the opcode byte, and the table
gives no row any further bit. -/
def decodeTableWord (_nbits w : Nat) : Option Instr :=
  match decodeRequest (tableRequest w) with
  | .ok i    => some i
  | .error _ => none

end Sys2Proof
end

