-- ==== Sys2Proof/Machine/Operands.lean ====
section
/-! DEFINITION. The argument encoder: the outbound argument bytes of each command (30_encoding R65, 40_handshake
R76, 41_commands R101 ARGS). -/
namespace Sys2Proof.Machine

/-- LED_CONTROL sends the pin verbatim, then the value as 0x00 or 0x01 (30_encoding R65, 40_handshake R76). -/
def ledControlBody (pin : Byte) (value : BitVec 1) : List Byte := [pin, value.setWidth 8]

/-- SENSOR_READ sends the channel verbatim (30_encoding R65). -/
def sensorReadBody (channel : Byte) : List Byte := [channel]

/-- LED_READ sends the pin verbatim (30_encoding R65). -/
def ledReadBody (pin : Byte) : List Byte := [pin]

/-- PRINT sends the length, then the text in index order: the length byte and the number of text bytes are the
same value (30_encoding R65, 20_memory R42, 60_exceptions R120). -/
def printBody (text : List Byte) : List Byte := BitVec.ofNat 8 text.length :: text

/-- ID_READ sends no argument byte (40_handshake R76, 90_conflicts C1). -/
def idReadBody : List Byte := []

/-- ARGS: the argument bytes of an instruction (40_handshake R76, 41_commands R101). -/
def argBytes : Instr → List Byte
  | .ledControl pin value => ledControlBody pin value
  | .sensorRead channel   => sensorReadBody channel
  | .ledRead pin          => ledReadBody pin
  | .print text           => printBody text
  | .idRead               => idReadBody

end Sys2Proof.Machine
end

