-- ==== Sys2Proof/Machine/State.lean ====
section
/-! DEFINITION. The machine's state: the registers of 10_state R13, one field a row, grouped as the spec names
them (ENG, RES, SEQ, the request slot); the instance's parameters; the refusals of 60_exceptions R119; and the
model's own environment choices and observation. -/
namespace Sys2Proof.Machine

/-- `ENG.phase` (10_state R17). The value 7 is never written and has no constructor. -/
inductive Phase where
  | idle | opc | stat | out | settle | cap | done
deriving DecidableEq, Repr, Inhabited

/-- `SEQ.state` (10_state R29, 42_sequencer R106). -/
inductive SeqState where
  | await | run
deriving DecidableEq, Repr, Inhabited

/-- The engine registers (10_state R17 to R26). -/
structure Eng where
  phase  : Phase
  cmd    : Cmd
  opc    : Byte
  ack    : Bool
  nout   : BitVec 9
  ncap   : Byte
  settle : Bool
  idx    : BitVec 9
  /-- `ENG.ARG[0..255]`. -/
  arg    : Vector Byte 256
  /-- `ENG.RSP[0..254]`. -/
  rsp    : Vector Byte 255
deriving DecidableEq, Repr

/-- The result registers (10_state R27). `RES.data` is a view, not a register. -/
structure Res where
  valid : Bool
  cmd   : Cmd
  ack   : Bool
  count : Byte
deriving DecidableEq, Repr

/-- The sequencer registers (10_state R29, R30). -/
structure Sequencer where
  state    : SeqState
  rot      : BitVec 2
  trigPend : Bool
deriving DecidableEq, Repr

/-- The request slot: `req_valid`, and `REQ` with `req_text` (10_state R28). -/
structure Slot where
  valid : Bool
  req   : Request
deriving DecidableEq, Repr

/-- A result published by DONE (41_commands R90, R104): an empty `data` with `ack` false is "no result". -/
structure Result where
  cmd  : Cmd
  ack  : Bool
  data : List Byte
deriving DecidableEq, Repr

/-- What can be observed of the PHE (41_commands R102). The model's own; no rule reads it (log 12). -/
structure Trace where
  /-- The `(tx, rx)` pairs of the transceives so far, oldest first. -/
  wire    : List (Byte × Byte)
  /-- The results published so far, oldest first. -/
  results : List Result
deriving DecidableEq, Repr

/-- The inputs the spec gives no meaning (60_exceptions R119, cases 1 to 4). Case 5, phase 7, cannot be
written down. -/
inductive RefusedInput where
  /-- Case 1: ACCEPT of a request whose `REQ.cmd` is 5, 6 or 7. -/
  | invalidCommand
  /-- Case 2: a request line with operands out of range, missing or extra, or a text of more than 255 bytes. -/
  | requestLine
  /-- Case 3: a host read while RES.valid = 0, or of `RES.data[i]` with `i >= RES.count`. -/
  | hostRead
  /-- Case 4: an instance whose opcodes break 30_encoding R60. -/
  | illFormedInstance
deriving DecidableEq, Repr

/-- The machine's state. -/
structure State where
  eng      : Eng
  res      : Res
  seq      : Sequencer
  slot     : Slot
  /-- The instance's parameters. No step writes them (10_state R14; log 1). -/
  cfg      : Config
  /-- The refusals recorded so far, which stay for good (60_exceptions R119; log 7). -/
  refusals : List RefusedInput
  /-- The environment's next choices, oldest first; where it is empty the next choice is free (log 3). -/
  pending  : List Event
  trace    : Trace
  /-- How many free values have been drawn (logs 3, 6). -/
  draws    : Nat
deriving DecidableEq, Repr

/-- The machine stops with a fault. -/
inductive Fault where
  /-- Raised by the OUT step where `ENG.idx` is no index of `ENG.ARG`. Safe: 20_memory R41 says that no buffer
  access can be out of range, so only states that no run reaches raise it (log 13). -/
  | argIndex
  /-- Raised by the CAP step where `ENG.idx` is no index of `ENG.RSP`. Safe, as `argIndex` (log 13). -/
  | rspIndex
deriving DecidableEq, Repr

/-- The machine gives an instruction no meaning. The spec's own refusals are no stop: 60_exceptions R119 records
them in the state (see `RefusedInput`). -/
inductive Refusal where
  /-- Raised by no arm of this model: every command has its meaning. Safe. -/
  | notModelled (mnemonic : String)
deriving DecidableEq, Repr

/-- The state after reset (70_reset_and_hazards R132, 10_state R35). DESIGN CHOICE (log 5): the buffers, REQ and
req_text, which the spec leaves unspecified, are zero. DESIGN CHOICE (logs 1, 3, 7, 12): the instance has the
spec's default parameters, no refusal is recorded, no choice is pending and nothing is observed yet. -/
def State.reset : State where
  eng := { phase := .idle, cmd := .ledControl, opc := 0x00, ack := false, nout := 0, ncap := 0, settle := false,
           idx := 0, arg := Vector.replicate 256 0, rsp := Vector.replicate 255 0 }
  res := { valid := false, cmd := .ledControl, ack := false, count := 0 }
  seq := { state := .await, rot := 0, trigPend := false }
  slot := { valid := false, req := { word := 0, text := Vector.replicate 255 0 } }
  cfg := Config.standard
  refusals := []
  pending := []
  trace := { wire := [], results := [] }
  draws := 0

end Sys2Proof.Machine
end

