-- ==== Sys2Proof/Machine/Ops.lean ====
section
/-! DEFINITION. The named operations over the registers and buffers: one transceive, the writes of ACCEPT,
AFTER_ARGS, the recording of a refusal, the views the host has, and RESET. The PHE takes no exception and returns
from none (60_exceptions R116, R124, R125), so there is no such operation. -/
namespace Sys2Proof.Machine

/-- The 3-bit value of `ENG.phase` (10_state R17). -/
def Phase.code : Phase → BitVec 3
  | .idle   => 0
  | .opc    => 1
  | .stat   => 2
  | .out    => 3
  | .settle => 4
  | .cap    => 5
  | .done   => 6

/-- The 1-bit value of `SEQ.state` (10_state R13). -/
def SeqState.code : SeqState → BitVec 1
  | .await => 0
  | .run   => 1

/-- A phase whose step does exactly one Transceive (10_state R17). -/
def Phase.transceives : Phase → Bool
  | .idle   => false
  | .opc    => true
  | .stat   => true
  | .out    => true
  | .settle => false
  | .cap    => true
  | .done   => false

/-- `busy = (ENG.phase != IDLE)` (10_state R28). -/
def State.busy (s : State) : Bool := s.eng.phase != .idle

/-- `req_ready = (ENG.phase == IDLE)` (10_state R28). -/
def State.reqReady (s : State) : Bool := s.eng.phase == .idle

/-- `RES.data`, the view `[ENG.RSP[0], ..., ENG.RSP[RES.count-1]]` (10_state R27). -/
def State.resData (s : State) : List Byte := s.eng.rsp.toList.take s.res.count.toNat

/-- The value a host read gives, or `none` where the read is refused: RES.valid = 0, or an element at or above
RES.count (10_state R25, R27; 60_exceptions R119 case 3). -/
def State.hostView (s : State) (r : HostRead) : Option Byte :=
  if s.res.valid then
    match r with
    | .cmd    => some (s.res.cmd.id.setWidth 8)
    | .ack    => some (if s.res.ack then 1 else 0)
    | .count  => some s.res.count
    | .data i => s.resData[i]?
  else none

/-- Records a refusal, which stays in the state for good, and changes nothing else (60_exceptions R119; log 7). -/
def State.refuse (r : RefusedInput) (s : State) : State :=
  if r ∈ s.refusals then s else { s with refusals := s.refusals ++ [r] }

/-- One Transceive: `tx` goes out and its paired `rx` comes in, in one step (00_scope R11, 20_memory R45). What
becomes of `rx` is the caller's; a drain discards it (10_state R38). -/
def State.transceive (tx rx : Byte) (s : State) : State :=
  { s with trace := { s.trace with wire := s.trace.wire ++ [(tx, rx)] } }

/-- `B[0..len-1] <- bytes`; the elements above are not written (40_handshake R76). -/
def writeBytes {n : Nat} (buf : Vector Byte n) (bytes : List Byte) : Vector Byte n :=
  Vector.ofFn fun i => bytes[i.val]?.getD buf[i]

/-- AFTER_ARGS with its `ENG.idx <- 0` where the phase is CAP (40_handshake R80). -/
def Eng.afterArgs (e : Eng) : Eng :=
  if e.settle then { e with phase := .settle }
  else if 0 < e.ncap then { e with phase := .cap, idx := 0 }
  else { e with phase := .done }

/-- The registers ACCEPT and ENCODE write for command `c` with argument bytes `body` (40_handshake R75, R76). -/
def Eng.accept (cfg : Config) (c : Cmd) (body : List Byte) (e : Eng) : Eng :=
  { e with
    phase  := .opc
    cmd    := c
    opc    := cfg.opcode c
    ack    := false
    nout   := BitVec.ofNat 9 body.length
    ncap   := cfg.ncapOf c
    settle := cfg.settleOf c
    idx    := 0
    arg    := writeBytes e.arg body }

/-- The writes of ACCEPT: the engine's, the last result invalidated, the request consumed (40_handshake R75). -/
def State.accept (c : Cmd) (body : List Byte) (s : State) : State :=
  { s with
    eng  := s.eng.accept s.cfg c body
    res  := { s.res with valid := false }
    slot := { s.slot with valid := false } }

/-- ACCEPT of command `c` with argument bytes `body`, enabled in IDLE (40_handshake R75). In any other phase the
request waits: it is neither accepted nor lost (R83). -/
def startExchange (c : Cmd) (body : List Byte) (s : State) : Host.Outcome State Fault Refusal :=
  if s.eng.phase = .idle then .next (s.accept c body) else .next s

/-- RESET: every register at its reset value, nothing carried over (70_reset_and_hazards R131, R132). What R132
leaves unspecified (ARG, RSP, REQ, req_text) is free (log 6). Not registers, and kept: the instance's parameters,
the recorded refusals, the environment's choices, the observation (log 7). No wire traffic (R134). -/
def State.takeReset (s : State) : State :=
  { s with
    eng := { State.reset.eng with
      arg := Vector.ofFn fun i => Config.unspecifiedByte s.draws i.val
      rsp := Vector.ofFn fun i => Config.unspecifiedByte s.draws (256 + i.val) }
    res := State.reset.res
    seq := State.reset.seq
    slot := { valid := false
              req := { word := Config.unspecifiedReq s.draws
                       text := Vector.ofFn fun i => Config.unspecifiedByte s.draws (511 + i.val) } }
    draws := s.draws + 1 }

end Sys2Proof.Machine
end

