-- ==== Sys2Proof/WellFormed.lean ====
section
/-! DEFINITION. Which instructions and which instances the spec gives a meaning. -/
namespace Sys2Proof

/-- A PRINT text has at most 255 bytes (30_encoding R56); every other operand is in range by its type. -/
def Instr.wellFormed : Instr → Bool
  | .ledControl _ _ => true
  | .sensorRead _   => true
  | .ledRead _      => true
  | .print text     => decide (text.length ≤ printMax)
  | .idRead         => true

/-- The five opcodes OPCODE(0..4) of an instance (30_encoding R58). -/
def Config.opcodes (cfg : Config) : List Byte :=
  [cfg.opcode .ledControl, cfg.opcode .sensorRead, cfg.opcode .ledRead, cfg.opcode .print, cfg.opcode .idRead]

/-- The opcodes are pairwise distinct, and none is the ACK or the filler sentinel (30_encoding R60). -/
def Config.wellFormed (cfg : Config) : Bool :=
  decide cfg.opcodes.Nodup && !cfg.opcodes.contains ackSentinel && !cfg.opcodes.contains fillerSentinel

end Sys2Proof
end

