-- ==== Sys2Proof/Machine/Commands.lean ====
section
/-! DEFINITION. The five commands (41_commands R91 to R95). A command's own step is its acceptance: the argument
encoder's row, the catalog's row and the writes of ACCEPT (40_handshake R75, R76). The phase steps of Engine.lean
then carry its Exchange out, one Transceive a step (log 10). -/
namespace Sys2Proof.Machine

/-- LED_CONTROL(pin, value) (41_commands R91). -/
def execLedControl (pin : Byte) (value : BitVec 1) (s : State) : Host.Outcome State Fault Refusal :=
  startExchange .ledControl (ledControlBody pin value) s

/-- SENSOR_READ(analog_channel) (41_commands R92). -/
def execSensorRead (channel : Byte) (s : State) : Host.Outcome State Fault Refusal :=
  startExchange .sensorRead (sensorReadBody channel) s

/-- LED_READ(pin) (41_commands R93). -/
def execLedRead (pin : Byte) (s : State) : Host.Outcome State Fault Refusal :=
  startExchange .ledRead (ledReadBody pin) s

/-- PRINT(text) (41_commands R94). A text of more than 255 bytes, which no request word can carry, is refused
(60_exceptions R119 case 2). -/
def execPrint (text : List Byte) (s : State) : Host.Outcome State Fault Refusal :=
  if text.length ≤ printMax then startExchange .print (printBody text) s else .next (s.refuse .requestLine)

/-- ID_READ() (41_commands R95). -/
def execIdRead (s : State) : Host.Outcome State Fault Refusal :=
  startExchange .idRead idReadBody s

end Sys2Proof.Machine
end

