-- ==== Sys2Proof/Machine/Dispatch.lean ====
section
/-! DEFINITION. One arm per command. -/
namespace Sys2Proof.Machine

def exec (i : Instr) (s : State) : Host.Outcome State Fault Refusal :=
  match i with
  | .ledControl pin value => Sys2Proof.Machine.execLedControl pin value s
  | .sensorRead channel => Sys2Proof.Machine.execSensorRead channel s
  | .ledRead pin => Sys2Proof.Machine.execLedRead pin s
  | .print text => Sys2Proof.Machine.execPrint text s
  | .idRead => Sys2Proof.Machine.execIdRead s

end Sys2Proof.Machine
end

