-- ==== Sys2Proof/Machine/Flags.lean ====
section
/-! DEFINITION. The PHE's one condition flag, AckStatus, is computed by the ACK/NACK gate (30_encoding R61). -/
namespace Sys2Proof.Machine

/-- `GATE(s) = (s == 0xF5)`: Acknowledged for exactly one of the 256 status bytes, the same for every command
(30_encoding R61, 40_handshake R86). -/
def gate (status : Byte) : Bool := status == ackSentinel

end Sys2Proof.Machine
end

