-- ==== Sys2Proof/Machine/Engine.lean ====
section
/-! DEFINITION. The phase steps of the byte-pair state machine that follow acceptance (40_handshake R77, R78, R80;
41_commands R87 to R90). Each takes the byte `rx` that CH answers where it transceives. -/
namespace Sys2Proof.Machine

/-- OPC: send the opcode and drain (40_handshake R77). -/
def opcStep (rx : Byte) (s : State) : State :=
  let s := s.transceive s.eng.opc rx
  { s with eng := { s.eng with phase := .stat } }

/-- What STAT writes once the gate has answered (40_handshake R78): Acknowledged enters the body, Rejected goes
straight to DONE and leaves `ENG.idx`. -/
def Eng.gated (acknowledged : Bool) (e : Eng) : Eng :=
  if acknowledged then
    if 0 < e.nout then { e with ack := true, idx := 0, phase := .out }
    else Eng.afterArgs { e with ack := true, idx := 0 }
  else { e with ack := false, phase := .done }

/-- STAT: send the filler, capture the status byte, apply the gate (40_handshake R78). -/
def statStep (rx : Byte) (s : State) : State :=
  let s := s.transceive fillerSentinel rx
  { s with eng := s.eng.gated (gate rx) }

/-- What OUT writes after its transceive (41_commands R87). -/
def Eng.sent (e : Eng) : Eng :=
  let e := { e with idx := e.idx + 1 }
  if e.idx = e.nout then e.afterArgs else e

/-- OUT: send one argument byte and drain (41_commands R87). -/
def outStep (rx : Byte) (s : State) : Host.Outcome State Fault Refusal :=
  match s.eng.arg[s.eng.idx.toNat]? with
  | some tx =>
    let s := s.transceive tx rx
    .next { s with eng := s.eng.sent }
  | none => .fault .argIndex

/-- SETTLE: the wait has no transceive and no duration (41_commands R88; log 21). -/
def settleStep (s : State) : State :=
  { s with eng := if 0 < s.eng.ncap then { s.eng with idx := 0, phase := .cap } else { s.eng with phase := .done } }

/-- What CAP writes after its transceive: the byte, raw, and the count (41_commands R89, R100). -/
def Eng.captured (rx : Byte) (e : Eng) : Eng :=
  let e := { e with rsp := e.rsp.setIfInBounds e.idx.toNat rx, idx := e.idx + 1 }
  if e.idx = e.ncap.setWidth 9 then { e with phase := .done } else e

/-- CAP: send the filler and capture one response byte (41_commands R89). -/
def capStep (rx : Byte) (s : State) : Host.Outcome State Fault Refusal :=
  if s.eng.idx.toNat < 255 then
    let s := s.transceive fillerSentinel rx
    .next { s with eng := s.eng.captured rx }
  else .fault .rspIndex

/-- The result registers DONE writes (41_commands R90). -/
def Eng.result (e : Eng) : Res where
  valid := true
  cmd   := e.cmd
  ack   := e.ack
  count := if e.ack then e.ncap else 0

/-- DONE: publish the result and end the Exchange (41_commands R90). -/
def doneStep (s : State) : State :=
  let s := { s with res := s.eng.result, eng := { s.eng with phase := .idle } }
  { s with trace := { s.trace with results := s.trace.results ++ [⟨s.res.cmd, s.res.ack, s.resData⟩] } }

end Sys2Proof.Machine
end

