-- ==== Sys2Proof/Machine/Sequencer.lean ====
section
/-! DEFINITION. Where an instruction comes from, and the PHE's one enabled step: ACCEPT of the request slot in HOST
mode, START and FINISH of the sequencer in SEQ mode (42_sequencer R105 to R115), the engine's phase steps. -/
namespace Sys2Proof.Machine

/-- The rotation table ROT (42_sequencer R107). -/
def rotation (rot : BitVec 2) : Cmd :=
  match rot.toNat with
  | 0 => .ledControl
  | 1 => .sensorRead
  | 2 => .ledRead
  | _ => .print

/-- The request START presents: ROT[SEQ.rot] with the arguments SEQ_ARGS[SEQ.rot] (42_sequencer R109, R111). -/
def State.rotationRequest (s : State) : Request :=
  let args := s.cfg.seqArgs[s.seq.rot.toNat]'s.seq.rot.isLt
  .ofFields args.tlen args.v args.a (rotation s.seq.rot).id args.text

/-- What START writes beside ACCEPT: the trigger consumed, RUN, the request presented (42_sequencer R109). -/
def State.presentRotation (s : State) : State :=
  { s with
    seq  := { s.seq with trigPend := false, state := .run }
    slot := { valid := true, req := s.rotationRequest } }

/-- ACCEPT of the request in the slot: the decoder names the instruction, whose meaning is run; an id of 5, 6 or 7
is refused and nothing else happens (40_handshake R75, 30_encoding R70). -/
def acceptRequest (s : State) : Host.Outcome State Fault Refusal :=
  match decodeRequest s.slot.req with
  | .ok i    => exec i s
  | .error _ => .next (s.refuse .invalidCommand)

/-- IDLE in HOST mode: ACCEPT once a request is offered; until then the engine waits (40_handshake R75,
60_exceptions R130). -/
def hostIdleStep (s : State) : Host.Outcome State Fault Refusal :=
  if s.slot.valid then acceptRequest s else .next s

/-- IDLE in SEQ mode: START, jointly with ACCEPT, once a trigger is pending; until then the sequencer waits
(42_sequencer R109, R113). -/
def seqIdleStep (s : State) : Host.Outcome State Fault Refusal :=
  if s.seq.state = .await ∧ s.seq.trigPend = true then acceptRequest s.presentRotation else .next s

/-- FINISH, jointly with DONE: the rotation advances whatever the outcome (42_sequencer R110). -/
def finishStep (s : State) : State :=
  let s := doneStep s
  { s with seq := { s.seq with rot := s.seq.rot + 1, state := .await } }

/-- DONE in SEQ mode is taken only with FINISH, which is enabled in RUN (41_commands R90, 42_sequencer R110). In
AWAIT, which no run reaches here, no step is enabled (log 16). -/
def seqDoneStep (s : State) : Host.Outcome State Fault Refusal :=
  if s.seq.state = .run then .next (finishStep s) else .next s

/-- The enabled step of the PHE, with the byte CH answers if it transceives; where none is enabled nothing
happens. -/
def pheStep (rx : Byte) (s : State) : Host.Outcome State Fault Refusal :=
  match s.eng.phase with
  | .idle =>
    match s.cfg.reqSource with
    | .host => hostIdleStep s
    | .seq  => seqIdleStep s
  | .opc    => .next (opcStep rx s)
  | .stat   => .next (statStep rx s)
  | .out    => outStep rx s
  | .settle => .next (settleStep s)
  | .cap    => capStep rx s
  | .done   =>
    match s.cfg.reqSource with
    | .host => .next (doneStep s)
    | .seq  => seqDoneStep s

end Sys2Proof.Machine
end

