-- ==== Sys2Proof/Machine/Environment.lean ====
section
/-! DEFINITION. The steps of the agents around the PHE: TRIG, HOST and RST (00_scope R12, 60_exceptions R123). -/
namespace Sys2Proof.Machine

/-- TRIG_EVENT sets the latch; events merge while it is set (42_sequencer R108). In HOST mode no rule writes the
sequencer registers (10_state R29; log 8). -/
def trigStep (s : State) : State :=
  match s.cfg.reqSource with
  | .seq  => { s with seq := { s.seq with trigPend := true } }
  | .host => s

/-- HOST writes the request slot, which it may do in HOST mode while `req_valid = 0` (10_state R28, 42_sequencer
R115). Otherwise the write is not enabled (log 9). -/
def offerStep (req : Request) (s : State) : State :=
  match s.cfg.reqSource with
  | .host => if s.slot.valid then s else { s with slot := { valid := true, req := req } }
  | .seq  => s

/-- HOST offers the request of a request line; a line that stands for none is refused (30_encoding R72,
60_exceptions R119 case 2). In SEQ mode there are no request lines (30_encoding R74). -/
def lineStep (l : ReqLine) (s : State) : State :=
  match s.cfg.reqSource with
  | .host =>
    match assemble l with
    | some i => offerStep (encodeRequest i) s
    | none   => s.refuse .requestLine
  | .seq  => s

/-- HOST reads a result output. A read with a meaning changes nothing; any other is refused (10_state R27,
60_exceptions R119 case 3; log 18). -/
def readStep (r : HostRead) (s : State) : State :=
  match s.hostView r with
  | some _ => s
  | none   => s.refuse .hostRead

/-- The step of the agent that acts. -/
def eventStep (e : Event) (s : State) : Host.Outcome State Fault Refusal :=
  match e with
  | .phe rx    => pheStep rx s
  | .trig      => .next (trigStep s)
  | .offer req => .next (offerStep req s)
  | .line l    => .next (lineStep l s)
  | .read r    => .next (readStep r s)
  | .rst       => .next s.takeReset
  | .quiet     => .next s

/-- The environment's next choice and the state without it: the oldest pending one, or a free one (00_scope R12;
log 3). -/
def State.nextChoice (s : State) : Event × State :=
  match s.pending with
  | e :: rest => (e, { s with pending := rest })
  | []        => (Config.nextEvent s.draws, { s with draws := s.draws + 1 })

/-- One step of the machine. An instance whose opcodes break 30_encoding R60 is refused and does nothing
(60_exceptions R119 case 4; log 17). -/
def machineStep (s : State) : Host.Outcome State Fault Refusal :=
  if s.cfg.wellFormed then eventStep s.nextChoice.1 s.nextChoice.2 else .next (s.refuse .illFormedInstance)

/-- The state in which the very next step accepts the given request: HOST mode, the engine in IDLE, the request in
the slot, and the PHE the next agent to act (log 11). -/
def State.placeRequest (s : State) (req : Request) : State :=
  { s with
    cfg     := { s.cfg with reqSource := .host }
    eng     := { s.eng with phase := .idle }
    slot    := { valid := true, req := req }
    pending := .phe 0 :: s.pending }

end Sys2Proof.Machine
end

