-- ==== Sys2Proof/Machine/Step.lean ====
section
/-! DEFINITION. One step of the machine, and the placing of an opcode-table word where the next step takes it. -/
namespace Sys2Proof.Machine

/-- One atomic action of one agent, or one joint action (00_scope R12). -/
def step (s : State) : Host.Outcome State Fault Refusal := machineStep s

/-- `s` with the request of an opcode-table word placed so that the very next step accepts it (log 11). -/
def State.withFetchWord (s : State) (_nbits w : Nat) : State := s.placeRequest (tableRequest w)

end Sys2Proof.Machine
end

