-- ==== Sys2Proof/Machine/Script.lean ====
section
/-! DEFINITION. The request syntax and the script lines as text (30_encoding R72 to R74), and the eager schedule
under which scripts are run (95_test_vectors section 3). Log 19 names the points of the syntax that the spec leaves
open. -/
namespace Sys2Proof.Machine

/-- A line of a script (30_encoding R72, R74). -/
inductive ScriptLine where
  /-- A request line. -/
  | request (l : ReqLine)
  /-- `TRIGGER`: one TRIG event. -/
  | trigger
  /-- `PEER b0, b1, ...`: the bytes CH returns to the next transceives. -/
  | peer (bytes : List Byte)
  /-- `RESET`. -/
  | reset
  /-- An empty line, or only a comment. -/
  | blank
deriving DecidableEq, Repr

/-- A token of a line. -/
inductive Token where
  /-- A word or a number, as written. -/
  | word (chars : List Char)
  /-- A quoted text. -/
  | quoted (elems : List Nat)
  | comma | openList | closeList
deriving DecidableEq, Repr

/-- What the lexer is inside of. -/
inductive LexState where
  | between
  | inWord (chars : List Char)
  | inQuotes (elems : List Nat)
deriving DecidableEq, Repr

/-- The token a state holds when a separator ends it. -/
def LexState.flush : LexState → List Token
  | .between    => []
  | .inWord cs  => [.word cs]
  | .inQuotes _ => []

/-- The tokens of a line. A `;` outside quotes starts a comment. A quoted text holds ASCII characters, one byte
each, and has no escapes; an unclosed one, or a character of no token, is no line (30_encoding R72; log 19). -/
def lexLine (st : LexState) : List Char → Option (List Token)
  | [] =>
    match st with
    | .inQuotes _ => none
    | .between    => some []
    | .inWord cs  => some [.word cs]
  | c :: rest =>
    match st with
    | .inQuotes es =>
      if c = '"' then (lexLine .between rest).map (.quoted es :: ·)
      else if c.toNat < 128 then lexLine (.inQuotes (es ++ [c.toNat])) rest
      else none
    | .between =>
      if c = ';' then some []
      else if c = ' ' then lexLine .between rest
      else if c = ',' then (lexLine .between rest).map (.comma :: ·)
      else if c = '[' then (lexLine .between rest).map (.openList :: ·)
      else if c = ']' then (lexLine .between rest).map (.closeList :: ·)
      else if c = '"' then lexLine (.inQuotes []) rest
      else if c.isAlphanum ∨ c = '_' then lexLine (.inWord [c]) rest
      else none
    | .inWord cs =>
      if c = ';' then some [.word cs]
      else if c = ' ' then (lexLine .between rest).map (.word cs :: ·)
      else if c = ',' then (lexLine .between rest).map ([.word cs, .comma] ++ ·)
      else if c = '[' then (lexLine .between rest).map ([.word cs, .openList] ++ ·)
      else if c = ']' then (lexLine .between rest).map ([.word cs, .closeList] ++ ·)
      else if c = '"' then (lexLine (.inQuotes []) rest).map (.word cs :: ·)
      else if c.isAlphanum ∨ c = '_' then lexLine (.inWord (cs ++ [c])) rest
      else none

/-- The value of a digit in a base of up to sixteen. -/
def digit (base : Nat) (c : Char) : Option Nat :=
  let v :=
    if '0' ≤ c ∧ c ≤ '9' then some (c.toNat - '0'.toNat)
    else if 'a' ≤ c ∧ c ≤ 'f' then some (c.toNat - 'a'.toNat + 10)
    else if 'A' ≤ c ∧ c ≤ 'F' then some (c.toNat - 'A'.toNat + 10)
    else none
  v.bind fun n => if n < base then some n else none

/-- A numeral without a prefix, read after the value so far. -/
def numeral (base acc : Nat) : List Char → Option Nat
  | []        => some acc
  | c :: rest => (digit base c).bind fun d => numeral base (acc * base + d) rest

/-- A decimal or `0x` number (30_encoding R72). -/
def number : List Char → Option Nat
  | '0' :: 'x' :: c :: rest => numeral 16 0 (c :: rest)
  | c :: rest               => numeral 10 0 (c :: rest)
  | []                      => none

/-- A byte of a PEER line, written in hex without a prefix as in 95_test_vectors (log 19). -/
def peerByte : List Char → Option Byte
  | []        => none
  | c :: rest => (numeral 16 0 (c :: rest)).bind byteOperand

/-- The operands of a request line, separated by commas; `list` holds the elements read so far inside brackets.
DESIGN CHOICE (log 19): an element of a bracketed byte list is a decimal or `0x` number, as 30_encoding R72 says of
numbers, and not the bare hex in which 95_test_vectors 2.6 writes such lists. -/
def parseOperands (list : Option (List Nat)) : List Token → Option (List Operand)
  | [.word w] =>
    match list with
    | none   => (number w).map fun n => [.num n]
    | some _ => none
  | .word w :: .comma :: rest =>
    match list with
    | none    => (number w).bind fun n => (parseOperands none rest).map (.num n :: ·)
    | some es => (number w).bind fun n => parseOperands (some (es ++ [n])) rest
  | [.word w, .closeList] =>
    match list with
    | none    => none
    | some es => (number w).map fun n => [.text (es ++ [n])]
  | .word w :: .closeList :: .comma :: rest =>
    match list with
    | none    => none
    | some es => (number w).bind fun n => (parseOperands none rest).map (.text (es ++ [n]) :: ·)
  | [.quoted es] => if list = none then some [.text es] else none
  | .quoted es :: .comma :: rest => if list = none then (parseOperands none rest).map (.text es :: ·) else none
  | [.openList, .closeList] => if list = none then some [.text []] else none
  | .openList :: .closeList :: .comma :: rest =>
    if list = none then (parseOperands none rest).map (.text [] :: ·) else none
  | .openList :: rest => if list = none then parseOperands (some []) rest else none
  | _ => none

/-- The bytes of a PEER line. -/
def parsePeer : List Token → Option (List Byte)
  | [.word w]                 => (peerByte w).map fun b => [b]
  | .word w :: .comma :: rest => (peerByte w).bind fun b => (parsePeer rest).map (b :: ·)
  | _                         => none

/-- The first word of a request line (30_encoding R72, R73). -/
def lineHead (w : List Char) : Option LineHead :=
  if w = "LED_CONTROL".toList then some .ledControl
  else if w = "SENSOR_READ".toList then some .sensorRead
  else if w = "LED_READ".toList then some .ledRead
  else if w = "PRINT".toList then some .print
  else if w = "ID_READ".toList then some .idRead
  else if w = "LED_ON".toList then some .ledOn
  else if w = "LED_OFF".toList then some .ledOff
  else none

/-- A line of a script, from its text; none where the text is no line (30_encoding R72 to R74). -/
def parseLine (chars : List Char) : Option ScriptLine :=
  (lexLine .between chars).bind fun
    | [] => some .blank
    | .word w :: rest =>
      if w = "TRIGGER".toList then (if rest = [] then some .trigger else none)
      else if w = "RESET".toList then (if rest = [] then some .reset else none)
      else if w = "PEER".toList then (parsePeer rest).map .peer
      else (lineHead w).bind fun head =>
        if rest = [] then some (.request { head := head, operands := [] })
        else (parseOperands none rest).map fun ops => .request { head := head, operands := ops }
    | _ => none

/-- Whether the PHE has an enabled step, given an answer of CH where it transceives. -/
def State.pheEnabled (s : State) : Bool :=
  match s.eng.phase with
  | .idle =>
    match s.cfg.reqSource with
    | .host => s.slot.valid
    | .seq  => decide (s.seq.state = .await) && s.seq.trigPend
  | .done =>
    match s.cfg.reqSource with
    | .host => true
    | .seq  => decide (s.seq.state = .run)
  | .opc | .stat | .out | .settle | .cap => true

/-- The eager schedule: every enabled step of the PHE, in order, for as long as the peer's bytes last, and at most
`fuel` steps (95_test_vectors section 3). It gives the bytes left over and the outcome. -/
def runEager : Nat → List Byte → State → List Byte × Host.Outcome State Fault Refusal
  | 0, peer, s => (peer, .next s)
  | fuel + 1, peer, s =>
    if s.pheEnabled then
      match s.eng.phase.transceives, peer with
      | true, []          => (peer, .next s)
      | true, b :: peer'  =>
        match eventStep (.phe b) s with
        | .next t => runEager fuel peer' t
        | o       => (peer', o)
      | false, peer =>
        match eventStep (.phe 0) s with
        | .next t => runEager fuel peer t
        | o       => (peer, o)
    else (peer, .next s)

/-- What a script line brings the machine: the state after the line's own event, and the peer's bytes
(30_encoding R74). -/
def scriptEvent (l : ScriptLine) (peer : List Byte) (s : State) : List Byte × Host.Outcome State Fault Refusal :=
  match l with
  | .request r  => (peer, eventStep (.line r) s)
  | .trigger    => (peer, eventStep .trig s)
  | .peer bytes => (peer ++ bytes, .next s)
  | .reset      => (peer, eventStep .rst s)
  | .blank      => (peer, .next s)

/-- A script under the eager schedule, with at most `fuel` steps of the PHE after each line. -/
def runScript (fuel : Nat) : List ScriptLine → List Byte → State → Host.Outcome State Fault Refusal
  | [], _, s => .next s
  | l :: rest, peer, s =>
    match scriptEvent l peer s with
    | (peer, .next t) =>
      match runEager fuel peer t with
      | (peer, .next u) => runScript fuel rest peer u
      | (_, o)          => o
    | (_, o) => o

end Sys2Proof.Machine
end

