-- ==== Sys2Proof/Machine/Exchange.lean ====
section
/-! DEFINITION. An Exchange as a whole: the reference function EXCH (41_commands R101), its phases and counts (R96,
R103; 30_encoding R67), and what an observer of the wire reads from it (30_encoding R59, R67). The machine's steps
use none of these; statements hold the steps against them. -/
namespace Sys2Proof.Machine

/-- What EXCH gives: the outbound sequence and the result (41_commands R101). -/
structure ExchangeResult where
  tx   : List Byte
  ack  : Bool
  data : List Byte
deriving DecidableEq, Repr

/-- The bytes captured in an Acknowledged Exchange (41_commands R101 `n`). -/
def captures (cfg : Config) (i : Instr) : Nat := (cfg.ncapOf i.cmd).toNat

/-- EXCH (41_commands R101). It is defined where there is one inbound byte for each outbound one. -/
def exch (cfg : Config) (i : Instr) (rx : List Byte) : Option ExchangeResult :=
  match rx with
  | _ :: status :: rest =>
    if gate status then
      if rest.length = (argBytes i).length + captures cfg i then
        some { tx   := cfg.opcode i.cmd :: fillerSentinel :: (argBytes i ++ List.replicate (captures cfg i) fillerSentinel)
               ack  := true
               data := rest.drop (argBytes i).length }
      else none
    else
      match rest with
      | []     => some { tx := [cfg.opcode i.cmd, fillerSentinel], ack := false, data := [] }
      | _ :: _ => none
  | _ => none

/-- The number T of transceives of an Exchange (30_encoding R67, 41_commands R96). -/
def transceiveCount (cfg : Config) (i : Instr) (ack : Bool) : Nat :=
  if ack then
    match i with
    | .ledControl _ _ => 4
    | .sensorRead _   => 4
    | .ledRead _      => 4
    | .print text     => 3 + text.length
    | .idRead         => 2 + cfg.idLen.toNat
  else 2

/-- The phases of an Exchange after IDLE (41_commands R96). -/
def phaseSequence (cfg : Config) (i : Instr) (ack : Bool) : List Phase :=
  if ack then
    match i with
    | .ledControl _ _ => [.opc, .stat, .out, .out, .done]
    | .sensorRead _   => [.opc, .stat, .out, .settle, .cap, .done]
    | .ledRead _      => [.opc, .stat, .out, .cap, .done]
    | .print text     => [.opc, .stat] ++ List.replicate (1 + text.length) .out ++ [.done]
    | .idRead         => [.opc, .stat] ++ List.replicate cfg.idLen.toNat .cap ++ [.done]
  else [.opc, .stat, .done]

/-- The number of ENG steps from ACCEPT to the return to IDLE: `T + 2 + s` (41_commands R103). -/
def engineSteps (cfg : Config) (i : Instr) (ack : Bool) : Nat :=
  transceiveCount cfg i ack + 2 + (if ack && cfg.settleOf i.cmd then 1 else 0)

/-- The environment's choices under which an Exchange runs without interruption from its acceptance to its end
with the inbound bytes `rx`. The steps that do not transceive are brought the byte `unused`. -/
def exchangeEvents (cfg : Config) (i : Instr) (ack : Bool) (unused : Byte) (rx : List Byte) : List Event :=
  let sends := 2 + (argBytes i).length
  .phe unused :: (rx.take sends).map .phe ++ (if ack && cfg.settleOf i.cmd then [.phe unused] else [])
    ++ (rx.drop sends).map .phe ++ [.phe unused]

/-- Why an observer cannot read an Exchange from the wire. -/
inductive WireError where
  /-- The wire ends before the Exchange does. -/
  | truncated
  /-- The first byte is no opcode (30_encoding R68). -/
  | noCommand (b : Byte)
  /-- A filler position holds another byte (30_encoding R62, R63). -/
  | noFiller
  /-- LED_CONTROL's value byte is neither 0x00 nor 0x01 (30_encoding R65). -/
  | badValue
deriving DecidableEq, Repr

/-- What an observer reads: the command, the outcome, the instruction if its operands were sent, and the captured
bytes. -/
structure Observed where
  cmd   : Cmd
  ack   : Bool
  instr : Option Instr
  data  : List Byte
deriving DecidableEq, Repr

/-- The body frame of an Acknowledged Exchange (30_encoding R63): the instruction, the captured bytes, and the rest
of the wire. -/
def decodeBody (cfg : Config) (c : Cmd) (wire : List (Byte × Byte)) :
    Except WireError (Instr × List Byte × List (Byte × Byte)) :=
  match c, wire with
  | .ledControl, (pin, _) :: (value, _) :: rest =>
    if value = 0 then .ok (.ledControl pin 0, [], rest)
    else if value = 1 then .ok (.ledControl pin 1, [], rest)
    else .error .badValue
  | .sensorRead, (channel, _) :: (filler, sample) :: rest =>
    if filler = fillerSentinel then .ok (.sensorRead channel, [sample], rest) else .error .noFiller
  | .ledRead, (pin, _) :: (filler, state) :: rest =>
    if filler = fillerSentinel then .ok (.ledRead pin, [state], rest) else .error .noFiller
  | .print, (len, _) :: rest =>
    if len.toNat ≤ rest.length then .ok (.print ((rest.take len.toNat).map (·.1)), [], rest.drop len.toNat)
    else .error .truncated
  | .idRead, wire =>
    if wire.length < cfg.idLen.toNat then .error .truncated
    else if (wire.take cfg.idLen.toNat).all (·.1 == fillerSentinel) then
      .ok (.idRead, (wire.take cfg.idLen.toNat).map (·.2), wire.drop cfg.idLen.toNat)
    else .error .noFiller
  | .ledControl, _ => .error .truncated
  | .sensorRead, _ => .error .truncated
  | .ledRead, _    => .error .truncated
  | .print, _      => .error .truncated

/-- What an observer of the wire reads from one Exchange, and the rest of the wire (30_encoding R59, R62, R67). -/
def decodeWire (cfg : Config) (wire : List (Byte × Byte)) :
    Except WireError (Observed × List (Byte × Byte)) :=
  match wire with
  | (opcode, _) :: (filler, status) :: rest =>
    match cfg.decodeOpcode opcode with
    | none   => .error (.noCommand opcode)
    | some c =>
      if filler = fillerSentinel then
        if gate status then
          match decodeBody cfg c rest with
          | .ok (i, data, rest) => .ok ({ cmd := c, ack := true, instr := some i, data := data }, rest)
          | .error e            => .error e
        else .ok ({ cmd := c, ack := false, instr := none, data := [] }, rest)
      else .error .noFiller
  | _ => .error .truncated

end Sys2Proof.Machine
end

