-- ==== Sys2Proof/Safety.lean ====
section
/-! DEFINITION. The invariants of 10_state R36 with the facts that make them hold step by step, and what a safe step
is. -/
namespace Sys2Proof.Machine

/-- The inbound bytes of the last `n` transceives. -/
def lastInbound (wire : List (Byte × Byte)) (n : Nat) : List Byte := (wire.drop (wire.length - n)).map (·.2)

/-- The first `n` elements of the response buffer are the inbound bytes of the last `n` transceives. -/
def State.capturedLast (s : State) (n : Nat) : Prop := s.eng.rsp.toList.take n = lastInbound s.trace.wire n

/-- The invariants 1 to 7 of 10_state R36. Item 6's "were all written by the Exchange that RES describes" is said
through the observation: the last published result is the one in RES, and its data are the inbound bytes of the last
transceives. -/
structure State.RuleInv (s : State) : Prop where
  /-- 1. -/
  awaitIdle : s.cfg.reqSource = .seq → s.seq.state = .await → s.eng.phase = .idle
  /-- 2. -/
  busyRun : s.cfg.reqSource = .seq → s.eng.phase ≠ .idle → s.seq.state = .run
  /-- 3. -/
  outBody : s.eng.phase = .out → s.eng.ack = true ∧ s.eng.idx < s.eng.nout
  /-- 4. -/
  capBody : s.eng.phase = .cap → s.eng.ack = true ∧ s.eng.idx < s.eng.ncap.setWidth 9
  /-- 5. -/
  settleBody : s.eng.phase = .settle → s.eng.ack = true ∧ s.eng.cmd = .sensorRead
  /-- 6. -/
  published : s.eng.phase = .idle → s.res.valid = true →
    s.res.count.toNat ≤ 255 ∧ s.capturedLast s.res.count.toNat ∧
      s.trace.results.getLast? = some ⟨s.res.cmd, s.res.ack, s.resData⟩
  /-- 7. -/
  counts : s.eng.ncap.toNat ≤ 255 ∧ s.eng.nout.toNat ≤ 256

/-- Facts beside R36 that hold in every run and carry its items from one step to the next. -/
structure State.SupportInv (s : State) : Prop where
  /-- In HOST mode the sequencer registers hold their reset values (10_state R29). -/
  hostSeq : s.cfg.reqSource = .host → s.seq = State.reset.seq
  /-- In RUN an Exchange is in progress (42_sequencer R109, R110). -/
  runBusy : s.cfg.reqSource = .seq → s.seq.state = .run → s.eng.phase ≠ .idle
  /-- A result is valid only between Exchanges (10_state R27, 40_handshake R75). -/
  validIdle : s.res.valid = true → s.eng.phase = .idle
  /-- The settle flag is set only for SENSOR_READ (10_state R23). -/
  settleCmd : s.eng.settle = true → s.eng.cmd = .sensorRead
  /-- During CAP the bytes captured so far stand in the buffer (20_memory R42). -/
  capturing : s.eng.phase = .cap → s.capturedLast s.eng.idx.toNat
  /-- In DONE of an Acknowledged Exchange all its bytes stand in the buffer. -/
  captured : s.eng.phase = .done → s.eng.ack = true → s.capturedLast s.eng.ncap.toNat
  /-- In DONE of a Rejected Exchange the flag says so, and before the gate it is clear (10_state R20). -/
  unacked : (s.eng.phase = .opc ∨ s.eng.phase = .stat) → s.eng.ack = false

/-- The invariant of the machine. -/
structure State.Inv (s : State) : Prop where
  rule    : s.RuleInv
  support : s.SupportInv

/-- A step that answers a next state: no fault and no refusal of the host's. -/
def State.goesOn (s : State) : Prop := ∃ t, step s = .next t

/-! ### Words that statements use -/

/-- The state whose next choice of the environment is `e` and whose state is otherwise `u`. -/
def State.withChoice (e : Event) (u : State) : State := { u with pending := e :: u.pending }

/-- The same for a list of choices, oldest first. -/
def State.withChoices (es : List Event) (u : State) : State := { u with pending := es ++ u.pending }

/-- The step is the PHE's, taken in one of the given phases. -/
def State.pheActsIn (u : State) (e : Event) (phases : List Phase) : Prop :=
  u.eng.phase ∈ phases ∧ ∃ rx, e = .phe rx

/-- `t` is `s` after the acceptance of command `c`: the registers of 40_handshake R75 and R76 written with the given
catalog row and argument bytes, and nothing else changed. -/
structure AcceptedAs (s t : State) (c : Cmd) (opcode : Byte) (body : List Byte) (settle : Bool) (ncap : Byte) :
    Prop where
  phase    : t.eng.phase = .opc
  cmd      : t.eng.cmd = c
  opc      : t.eng.opc = opcode
  ack      : t.eng.ack = false
  nout     : t.eng.nout.toNat = body.length
  ncap     : t.eng.ncap = ncap
  settle   : t.eng.settle = settle
  idx      : t.eng.idx = 0
  /-- Elements `0..nout-1` of ARG are the argument bytes. -/
  args     : ∀ (k : Nat) (b : Byte), body[k]? = some b → t.eng.arg[k]? = some b
  /-- The elements at `nout` or above are not written. -/
  argsRest : ∀ k : Nat, body.length ≤ k → t.eng.arg[k]? = s.eng.arg[k]?
  rsp      : t.eng.rsp = s.eng.rsp
  res      : t.res = { s.res with valid := false }
  /-- The request is consumed. That REQ and req_text keep their values is the model's choice (DESIGN CHOICE, log 15):
  10_state R28 leaves them unspecified once `req_valid` is clear. -/
  slot     : t.slot = { s.slot with valid := false }
  seq      : t.seq = s.seq
  cfg      : t.cfg = s.cfg
  refusals : t.refusals = s.refusals
  pending  : t.pending = s.pending
  trace    : t.trace = s.trace
  draws    : t.draws = s.draws

/-- The register values of 70_reset_and_hazards R132. -/
structure State.HasResetValues (t : State) : Prop where
  phase    : t.eng.phase = .idle
  cmd      : t.eng.cmd.id = 0
  opc      : t.eng.opc = 0x00
  ack      : t.eng.ack = false
  nout     : t.eng.nout = 0
  ncap     : t.eng.ncap = 0
  settle   : t.eng.settle = false
  idx      : t.eng.idx = 0
  valid    : t.res.valid = false
  resCmd   : t.res.cmd.id = 0
  resAck   : t.res.ack = false
  count    : t.res.count = 0
  seqState : t.seq.state = .await
  rot      : t.seq.rot = 0
  trigPend : t.seq.trigPend = false
  reqValid : t.slot.valid = false

/-- How many elements of RSP hold bytes of the Exchange in progress, or of the result that can be read. -/
def State.rspInUse (s : State) : Nat :=
  match s.eng.phase with
  | .idle   => if s.res.valid then s.res.count.toNat else 0
  | .opc    => 0
  | .stat   => 0
  | .out    => 0
  | .settle => 0
  | .cap    => s.eng.idx.toNat
  | .done   => if s.eng.ack then s.eng.ncap.toNat else 0

/-- How many elements of ARG hold bytes of the Exchange in progress. -/
def State.argInUse (s : State) : Nat := if s.eng.phase = .idle then 0 else s.eng.nout.toNat

/-- Two states that differ at most where the spec says that no rule looks: elements of ARG and RSP not in use, and
REQ and req_text while `req_valid = 0` (10_state R24, R25, R28). -/
structure SameInUse (s t : State) : Prop where
  eng      : t.eng = { s.eng with arg := t.eng.arg, rsp := t.eng.rsp }
  arg      : ∀ k : Nat, k < s.argInUse → t.eng.arg[k]? = s.eng.arg[k]?
  rsp      : ∀ k : Nat, k < s.rspInUse → t.eng.rsp[k]? = s.eng.rsp[k]?
  res      : t.res = s.res
  seq      : t.seq = s.seq
  valid    : t.slot.valid = s.slot.valid
  req      : s.slot.valid = true → t.slot.req = s.slot.req
  cfg      : t.cfg = s.cfg
  refusals : t.refusals = s.refusals
  pending  : t.pending = s.pending
  trace    : t.trace = s.trace
  draws    : t.draws = s.draws

/-- `s` in an instance with another settle delay and another bit order on the link. -/
def State.retimed (delay : Nat) (order : BitOrder) (s : State) : State :=
  { s with cfg := { s.cfg with settleDelay := delay, chBitOrder := order } }

/-- The PHE's next step is the acceptance of instruction `i`: of the offered request in HOST mode (40_handshake R75), of
the rotation's request by START in SEQ mode (42_sequencer R109). -/
def State.startsExchange (u : State) (i : Instr) : Prop :=
  u.eng.phase = .idle ∧
  ((u.cfg.reqSource = .host ∧ u.slot.valid = true ∧ decodeRequest u.slot.req = .ok i) ∨
    (u.cfg.reqSource = .seq ∧ u.seq.state = .await ∧ u.seq.trigPend = true ∧ decodeRequest u.rotationRequest = .ok i))

/-- Whether a choice lets the PHE act. -/
def isPheEvent : Event → Bool
  | .phe _   => true
  | .trig    => false
  | .offer _ => false
  | .line _  => false
  | .read _  => false
  | .rst     => false
  | .quiet   => false

/-- `s` in an instance with another table SEQ_ARGS (42_sequencer R111). -/
def State.withSeqArgs (args : Vector SeqArg 4) (s : State) : State := { s with cfg := { s.cfg with seqArgs := args } }

/-- The operands of a line are as many, and of the kinds, as its first word takes (30_encoding R72, R73). -/
def operandsFit (l : ReqLine) : Prop :=
  match l.head with
  | .ledControl => ∃ pin value, l.operands = [.num pin, .num value]
  | .sensorRead => ∃ channel, l.operands = [.num channel]
  | .ledRead    => ∃ pin, l.operands = [.num pin]
  | .print      => ∃ elems, l.operands = [.text elems]
  | .idRead     => l.operands = []
  | .ledOn      => ∃ pin, l.operands = [.num pin]
  | .ledOff     => ∃ pin, l.operands = [.num pin]

/-- Two requests that agree in the command and in every field that command uses (30_encoding R66). -/
def Request.agreesInUse (r r' : Request) : Prop :=
  r'.cmdField = r.cmdField ∧
  (r.cmdField = Cmd.ledControl.id → r'.aField = r.aField ∧ r'.vField = r.vField) ∧
  (r.cmdField = Cmd.sensorRead.id ∨ r.cmdField = Cmd.ledRead.id → r'.aField = r.aField) ∧
  (r.cmdField = Cmd.print.id → r'.tlenField = r.tlenField ∧ r'.textBytes = r.textBytes)

end Sys2Proof.Machine
end

