-- ==== Sys2Proof/Certificates/Slice0/Obligations.lean ====
section
/-! DEFINITION. The statements for the provers. Each docstring names the rule of spec/ it rests on. -/

open Sys2Proof Sys2Proof.Machine

/-! ### The gate, the opcodes and the request word -/

/-- 30_encoding R61: Acknowledged for exactly the byte 0xF5, Rejected for the other 255. -/
def Obligations.GateExact : Prop :=
  ∀ status : Byte, (gate status = true ↔ status = 0xF5) ∧ (gate status = false ↔ status ≠ 0xF5)

/-- 30_encoding R59: the decoder finds exactly the catalog's opcodes, never a sentinel, and its lookup port says so. -/
def Obligations.OpcodeDecoder : Prop :=
  ∀ cfg : Config, cfg.wellFormed = true →
    (∀ (b : Byte) (c : Cmd), cfg.decodeOpcode b = some c ↔ b = cfg.opcode c) ∧
    cfg.decodeOpcode 0xF5 = none ∧ cfg.decodeOpcode 0xFF = none ∧
    (∀ b : Byte, ((cfg.decoderPort b).1 = true ↔ ∃ c, b = cfg.opcode c) ∧
      (∀ c, b = cfg.opcode c → (cfg.decoderPort b).2 = c.id) ∧
      ((cfg.decoderPort b).1 = false → (cfg.decoderPort b).2 = 0))

/-- 30_encoding R60: an instance is well formed exactly where its opcodes are pairwise distinct and no sentinel; the
spec's defaults are. -/
def Obligations.OpcodeConstraint : Prop :=
  (∀ cfg : Config, cfg.wellFormed = true ↔
    (∀ c d : Cmd, cfg.opcode c = cfg.opcode d → c = d) ∧ (∀ c : Cmd, cfg.opcode c ≠ 0xF5 ∧ cfg.opcode c ≠ 0xFF)) ∧
  Config.standard.wellFormed = true

/-- 60_exceptions R119 case 4: an ill-formed instance records a refusal and does nothing else, whatever its state. -/
def Obligations.IllFormedInstanceRefused : Prop :=
  ∀ s : State, s.cfg.wellFormed = false →
    ∃ t, step s = .next t ∧ RefusedInput.illFormedInstance ∈ t.refusals ∧ t = { s with refusals := t.refusals }

/-- Four request words written out bit by bit from 30_encoding R55, `tlen | v | a | cmd`, and one of an id that names
no command. -/
def Obligations.DecodeWords : Prop :=
  decodeRequest { word := 0b00000000_1_00001001_000, text := padText [] } = .ok (.ledControl 9 1) ∧
  decodeRequest { word := 0b00000000_0_00000011_001, text := padText [] } = .ok (.sensorRead 3) ∧
  decodeRequest { word := 0b00000000_0_00001001_010, text := padText [] } = .ok (.ledRead 9) ∧
  decodeRequest { word := 0b00000010_0_00000000_011, text := padText [0x48, 0x69, 0x21] } = .ok (.print [0x48, 0x69]) ∧
  decodeRequest { word := 0b00000000_0_00000000_100, text := padText [] } = .ok .idRead ∧
  decodeRequest { word := 0b00000000_0_00000000_101, text := padText [] } = .error (.invalidCommand 5)

/-- 30_encoding R55, R57, R65: what each request word stands for, field by field, and that a word is its fields. -/
def Obligations.DecodeFields : Prop :=
  (∀ (tlen : Byte) (v : BitVec 1) (a : Byte) (c : Cmd) (text : Text),
    decodeRequest (.ofFields tlen v a c.id text) =
      .ok (match c with
        | .ledControl => .ledControl a v
        | .sensorRead => .sensorRead a
        | .ledRead    => .ledRead a
        | .print      => .print (text.toList.take tlen.toNat)
        | .idRead     => .idRead)) ∧
  (∀ r : Request, Request.ofFields r.tlenField r.vField r.aField r.cmdField r.text = r) ∧
  (∀ r : Request, 4 < r.cmdField.toNat → decodeRequest r = .error (.invalidCommand r.cmdField))

/-- 30_encoding R54, R65: the decoder gives back every well-formed instruction from its request, with every operand. -/
def Obligations.DecodeEncode : Prop :=
  ∀ i : Instr, i.wellFormed = true → decodeRequest (encodeRequest i) = .ok i

/-- 30_encoding R66: two requests that differ only in ignored fields produce the same Exchange. The acceptance of
the one and of the other end in the same state, but for the request word left in the slot, which nothing reads
again (20_memory R47). That the slot keeps the accepted word is the model's choice (DESIGN CHOICE, log 15; 10_state R28
leaves it unspecified). -/
def Obligations.IgnoredFields : Prop :=
  ∀ (u t : State) (r r' : Request) (rx : Byte), Request.agreesInUse r r' →
    u.cfg.wellFormed = true → u.cfg.reqSource = .host → u.eng.phase = .idle →
    step (State.withChoice (.phe rx) { u with slot := ⟨true, r⟩ }) = .next t →
    step (State.withChoice (.phe rx) { u with slot := ⟨true, r'⟩ }) = .next { t with slot := { t.slot with req := r' } }

/-! ### Where an instruction comes from -/

/-- 00_scope R12: a step is the step of the agent that the environment's next choice names; where none is pending
the choice is free (log 3, DESIGN CHOICE: the choices stand in the state). -/
def Obligations.StepTakesChoice : Prop :=
  ∀ (u : State) (e : Event), u.cfg.wellFormed = true →
    step (u.withChoice e) = eventStep e u ∧
    (u.pending = [] → step u = eventStep (Config.nextEvent u.draws) { u with draws := u.draws + 1 })

/-- 40_handshake R75, 42_sequencer R115: in HOST mode the PHE's step in IDLE with a request offered runs the
instruction the request decodes to. -/
def Obligations.StepRunsRequest : Prop :=
  ∀ (u : State) (i : Instr) (rx : Byte), u.cfg.wellFormed = true → u.cfg.reqSource = .host →
    u.eng.phase = .idle → u.slot.valid = true → decodeRequest u.slot.req = .ok i →
    step (u.withChoice (.phe rx)) = exec i u

/-- 42_sequencer R107, R109, R111: in SEQ mode a pending trigger in AWAIT starts the rotation's command with the
arguments of its SEQ_ARGS entry: the trigger is consumed, the sequencer runs, and that instruction is run. -/
def Obligations.StepRunsRotation : Prop :=
  ∀ (u : State) (rx : Byte), u.cfg.wellFormed = true → u.cfg.reqSource = .seq →
    u.eng.phase = .idle → u.seq.state = .await → u.seq.trigPend = true →
    ∃ (args : SeqArg) (c : Cmd) (i : Instr),
      u.cfg.seqArgs[u.seq.rot.toNat]? = some args ∧
      [Cmd.ledControl, .sensorRead, .ledRead, .print][u.seq.rot.toNat]? = some c ∧
      i = (match c with
        | .ledControl => .ledControl args.a args.v
        | .sensorRead => .sensorRead args.a
        | .ledRead    => .ledRead args.a
        | .print      => .print (args.text.toList.take args.tlen.toNat)
        | .idRead     => .idRead) ∧
      step (u.withChoice (.phe rx)) =
        exec i { u with
          seq  := { u.seq with state := .run, trigPend := false }
          slot := { valid := true, req := .ofFields args.tlen args.v args.a c.id args.text } }

/-- 30_encoding R70: a request with an id of 5, 6 or 7 is refused at acceptance: the PHE stays in IDLE, sends nothing
and writes nothing. -/
def Obligations.InvalidIdRefused : Prop :=
  ∀ (u : State) (rx : Byte), u.cfg.wellFormed = true → u.cfg.reqSource = .host →
    u.eng.phase = .idle → u.slot.valid = true → 4 < u.slot.req.cmdField.toNat →
    ∃ t, step (u.withChoice (.phe rx)) = .next t ∧ t = { u with refusals := t.refusals } ∧
      RefusedInput.invalidCommand ∈ t.refusals

/-- 60_exceptions R130, 42_sequencer R113: with no request (HOST) or no trigger (SEQ) the PHE waits and all state is
preserved. -/
def Obligations.WaitsQuietly : Prop :=
  ∀ (u : State) (rx : Byte), u.cfg.wellFormed = true → u.eng.phase = .idle →
    (u.cfg.reqSource = .host → u.slot.valid = false) →
    (u.cfg.reqSource = .seq → u.seq.trigPend = false) →
    step (u.withChoice (.phe rx)) = .next u

/-! ### The five commands: acceptance, with its frame -/

/-- 40_handshake R75, R76 and 41_commands R91: LED_CONTROL in IDLE is accepted.The kept request word in
`AcceptedAs.slot` is the model's choice (DESIGN CHOICE, log 15), not the spec's. -/
def Obligations.AcceptLedControl : Prop :=
  ∀ (s : State) (pin : Byte) (value : BitVec 1), s.eng.phase = .idle →
    ∃ t, exec (.ledControl pin value) s = .next t ∧
      AcceptedAs s t .ledControl 0x50 [pin, if value = 1 then 0x01 else 0x00] false 0

/-- 40_handshake R75, R76 and 41_commands R92: SENSOR_READ in IDLE is accepted.The kept request word in
`AcceptedAs.slot` is the model's choice (DESIGN CHOICE, log 15), not the spec's. -/
def Obligations.AcceptSensorRead : Prop :=
  ∀ (s : State) (channel : Byte), s.eng.phase = .idle →
    ∃ t, exec (.sensorRead channel) s = .next t ∧ AcceptedAs s t .sensorRead 0x51 [channel] true 1

/-- 40_handshake R75, R76 and 41_commands R93: LED_READ in IDLE is accepted.The kept request word in
`AcceptedAs.slot` is the model's choice (DESIGN CHOICE, log 15), not the spec's. -/
def Obligations.AcceptLedRead : Prop :=
  ∀ (s : State) (pin : Byte), s.eng.phase = .idle →
    ∃ t, exec (.ledRead pin) s = .next t ∧ AcceptedAs s t .ledRead s.cfg.opcLedRead [pin] false 1

/-- 40_handshake R75, R76 and 41_commands R94: PRINT of a text of at most 255 bytes in IDLE is accepted; the length
byte is the number of text bytes. The kept request word in
`AcceptedAs.slot` is the model's choice (DESIGN CHOICE, log 15), not the spec's. -/
def Obligations.AcceptPrint : Prop :=
  ∀ (s : State) (text : List Byte), s.eng.phase = .idle → text.length ≤ 255 →
    ∃ (t : State) (len : Byte), exec (.print text) s = .next t ∧ len.toNat = text.length ∧
      AcceptedAs s t .print 0x53 (len :: text) false 0

/-- 60_exceptions R119 case 2: a PRINT of more than 255 bytes is refused in every phase, and nothing else changes. -/
def Obligations.LongPrintRefused : Prop :=
  ∀ (s : State) (text : List Byte), 255 < text.length →
    ∃ t, exec (.print text) s = .next t ∧ RefusedInput.requestLine ∈ t.refusals ∧ t = { s with refusals := t.refusals }

/-- 40_handshake R75, R76 and 41_commands R95: ID_READ in IDLE is accepted.The kept request word in
`AcceptedAs.slot` is the model's choice (DESIGN CHOICE, log 15), not the spec's. -/
def Obligations.AcceptIdRead : Prop :=
  ∀ s : State, s.eng.phase = .idle →
    ∃ t, exec .idRead s = .next t ∧ AcceptedAs s t .idRead s.cfg.opcIdRead [] false s.cfg.idLen

/-- 40_handshake R83: while an Exchange is in progress a request is neither accepted nor lost: a command's meaning
changes nothing, and no step but RESET takes the offered request or starts another command. -/
def Obligations.HeldWhileBusy : Prop :=
  (∀ (s : State) (i : Instr), i.wellFormed = true → s.eng.phase ≠ .idle → exec i s = .next s) ∧
  (∀ (u t : State) (e : Event), u.cfg.wellFormed = true → u.eng.phase ≠ .idle → u.slot.valid = true → e ≠ .rst →
    step (u.withChoice e) = .next t →
    t.slot = u.slot ∧ t.eng.cmd = u.eng.cmd ∧ t.eng.opc = u.eng.opc ∧ t.eng.arg = u.eng.arg)

/-! ### The phase steps -/

/-- 40_handshake R77: OPC sends the opcode, drains, and goes to STAT. -/
def Obligations.OpcStep : Prop :=
  ∀ (u : State) (rx : Byte), u.cfg.wellFormed = true → u.eng.phase = .opc →
    step (u.withChoice (.phe rx)) =
      .next { u with
        eng := { u.eng with phase := .stat }
        trace := { u.trace with wire := u.trace.wire ++ [(u.eng.opc, rx)] } }

/-- 40_handshake R78: STAT sends 0xFF and branches on the gate. Acknowledged: the index is cleared and the body is
entered, at OUT or as AFTER_ARGS says. Rejected: DONE. -/
def Obligations.StatStep : Prop :=
  ∀ (u : State) (rx : Byte), u.cfg.wellFormed = true → u.eng.phase = .stat →
    ∃ t, step (u.withChoice (.phe rx)) = .next t ∧
      t = { u with eng := t.eng, trace := { u.trace with wire := u.trace.wire ++ [(0xFF, rx)] } } ∧
      (rx ≠ 0xF5 → t.eng = { u.eng with ack := false, phase := .done }) ∧
      (rx = 0xF5 → 0 < u.eng.nout.toNat → t.eng = { u.eng with ack := true, idx := 0, phase := .out }) ∧
      (rx = 0xF5 → u.eng.nout = 0 → t.eng = Eng.afterArgs { u.eng with ack := true, idx := 0 })

/-- 40_handshake R80: AFTER_ARGS, and its value for each command once accepted. -/
def Obligations.AfterArgs : Prop :=
  (∀ e : Eng, (e.settle = true → e.afterArgs = { e with phase := .settle }) ∧
    (e.settle = false → 0 < e.ncap.toNat → e.afterArgs = { e with phase := .cap, idx := 0 }) ∧
    (e.settle = false → e.ncap = 0 → e.afterArgs = { e with phase := .done })) ∧
  (∀ (s t : State) (i : Instr), s.eng.phase = .idle → i.wellFormed = true → exec i s = .next t →
    (Eng.afterArgs t.eng).phase =
      match i with
      | .ledControl _ _ => .done
      | .sensorRead _   => .settle
      | .ledRead _      => .cap
      | .print _        => .done
      | .idRead         => if s.cfg.idLen = 0 then .done else .cap)

/-- 41_commands R87: OUT sends the argument byte at the index, drains, and counts; at the last byte it goes on as
AFTER_ARGS says. -/
def Obligations.OutStep : Prop :=
  ∀ (u : State) (rx : Byte), u.cfg.wellFormed = true → u.eng.phase = .out → u.eng.idx.toNat < 256 →
    ∃ (t : State) (tx : Byte), step (u.withChoice (.phe rx)) = .next t ∧ u.eng.arg[u.eng.idx.toNat]? = some tx ∧
      t = { u with eng := t.eng, trace := { u.trace with wire := u.trace.wire ++ [(tx, rx)] } } ∧
      (u.eng.idx.toNat + 1 = u.eng.nout.toNat → t.eng = Eng.afterArgs { u.eng with idx := u.eng.idx + 1 }) ∧
      (u.eng.idx.toNat + 1 ≠ u.eng.nout.toNat → t.eng = { u.eng with idx := u.eng.idx + 1 })

/-- 41_commands R88: SETTLE has no transceive and goes to CAP. -/
def Obligations.SettleStep : Prop :=
  ∀ (u : State) (rx : Byte), u.cfg.wellFormed = true → u.eng.phase = .settle →
    step (u.withChoice (.phe rx)) =
      .next { u with eng := if u.eng.ncap = 0 then { u.eng with phase := .done }
                            else { u.eng with idx := 0, phase := .cap } }

/-- 41_commands R89, R100: CAP sends 0xFF, stores the inbound byte raw at the index, and counts; at the last byte it
goes to DONE. No other element of the buffer changes. -/
def Obligations.CapStep : Prop :=
  ∀ (u : State) (rx : Byte), u.cfg.wellFormed = true → u.eng.phase = .cap → u.eng.idx.toNat < 255 →
    ∃ t, step (u.withChoice (.phe rx)) = .next t ∧
      t = { u with
        eng := { u.eng with
          rsp := t.eng.rsp
          idx := u.eng.idx + 1
          phase := if u.eng.idx.toNat + 1 = u.eng.ncap.toNat then .done else .cap }
        trace := { u.trace with wire := u.trace.wire ++ [(0xFF, rx)] } } ∧
      t.eng.rsp[u.eng.idx.toNat]? = some rx ∧
      ∀ k : Nat, k ≠ u.eng.idx.toNat → t.eng.rsp[k]? = u.eng.rsp[k]?

/-- 20_memory R41: no buffer access is out of range. The PHE's step stops on nothing but an index outside the buffer
(DESIGN CHOICE, log 13: there it stops with a fault). -/
def Obligations.BufferBounds : Prop :=
  ∀ (u : State) (rx : Byte), u.cfg.wellFormed = true →
    (step (u.withChoice (.phe rx)) = .fault .argIndex ↔ u.eng.phase = .out ∧ 256 ≤ u.eng.idx.toNat) ∧
    (step (u.withChoice (.phe rx)) = .fault .rspIndex ↔ u.eng.phase = .cap ∧ 255 ≤ u.eng.idx.toNat) ∧
    (∀ r, step (u.withChoice (.phe rx)) ≠ .refused r)

/-- 41_commands R90 and 42_sequencer R110: DONE publishes the result, in SEQ mode jointly with FINISH, which advances
the rotation whatever the outcome. -/
def Obligations.DoneStep : Prop :=
  ∀ (u : State) (rx : Byte), u.cfg.wellFormed = true → u.eng.phase = .done →
    (u.cfg.reqSource = .seq → u.seq.state = .run) →
    ∃ t, step (u.withChoice (.phe rx)) = .next t ∧
      t.res = { valid := true, cmd := u.eng.cmd, ack := u.eng.ack, count := if u.eng.ack then u.eng.ncap else 0 } ∧
      t.eng = { u.eng with phase := .idle } ∧
      (u.cfg.reqSource = .host → t.seq = u.seq) ∧
      (u.cfg.reqSource = .seq →
        t.seq = { u.seq with rot := BitVec.ofNat 2 ((u.seq.rot.toNat + 1) % 4), state := .await }) ∧
      t.trace.wire = u.trace.wire ∧ t.trace.results = u.trace.results ++ [⟨t.res.cmd, t.res.ack, t.resData⟩] ∧
      t.slot = u.slot ∧ t.cfg = u.cfg ∧ t.refusals = u.refusals ∧ t.pending = u.pending ∧ t.draws = u.draws

/-! ### The agents around the PHE -/

/-- 42_sequencer R108: in SEQ mode a TRIG event sets the latch in every state and phase; a second one merges. In HOST
mode no rule writes the sequencer (DEDUCED, log 8). -/
def Obligations.TriggerLatch : Prop :=
  ∀ u : State, u.cfg.wellFormed = true →
    (u.cfg.reqSource = .seq →
      step (u.withChoice .trig) = .next { u with seq := { u.seq with trigPend := true } } ∧
      step ({ u with seq := { u.seq with trigPend := true } }.withChoice .trig) =
        .next { u with seq := { u.seq with trigPend := true } }) ∧
    (u.cfg.reqSource = .host → step (u.withChoice .trig) = .next u)

/-- 70_reset_and_hazards R132: the registers have these values after a RESET step, from every state and phase, and in
the state the model starts from. -/
def Obligations.ResetValues : Prop :=
  State.reset.HasResetValues ∧
  ∀ u : State, u.cfg.wellFormed = true → ∃ t, step (u.withChoice .rst) = .next t ∧ t.HasResetValues

/-- 70_reset_and_hazards R133, R134: a RESET sends nothing and publishes nothing, also during an Exchange. The
instance and the recorded refusals stay (DEDUCED, log 7). -/
def Obligations.ResetFrame : Prop :=
  ∀ u : State, u.cfg.wellFormed = true →
    ∃ t, step (u.withChoice .rst) = .next t ∧ t.trace = u.trace ∧ t.cfg = u.cfg ∧ t.refusals = u.refusals ∧
      t.pending = u.pending

/-- 10_state R28, 42_sequencer R115: in HOST mode an offered request fills an empty slot. A full slot, and the slot
in SEQ mode, is left alone (DEDUCED, log 9). -/
def Obligations.OfferStep : Prop :=
  ∀ (u : State) (req : Request), u.cfg.wellFormed = true →
    (u.cfg.reqSource = .host → u.slot.valid = false →
      step (u.withChoice (.offer req)) = .next { u with slot := { valid := true, req := req } }) ∧
    (u.cfg.reqSource = .host → u.slot.valid = true → step (u.withChoice (.offer req)) = .next u) ∧
    (u.cfg.reqSource = .seq → step (u.withChoice (.offer req)) = .next u)

/-- 10_state R25, R27 and 60_exceptions R119 case 3: what a host read gives, and that any other read is refused. -/
def Obligations.HostReads : Prop :=
  ∀ (u : State) (r : HostRead), u.cfg.wellFormed = true →
    (u.res.valid = false → u.hostView r = none) ∧
    (u.res.valid = true → u.hostView r =
      match r with
      | .cmd    => some (u.res.cmd.id.setWidth 8)
      | .ack    => some (if u.res.ack then 1 else 0)
      | .count  => some u.res.count
      | .data i => if i < u.res.count.toNat then u.eng.rsp[i]? else none) ∧
    (u.hostView r ≠ none → step (u.withChoice (.read r)) = .next u) ∧
    (u.hostView r = none → ∃ t, step (u.withChoice (.read r)) = .next t ∧ RefusedInput.hostRead ∈ t.refusals ∧
      t = { u with refusals := t.refusals })

/-- 30_encoding R72, R73: which request lines and pseudo-requests stand for which instruction. Operands out of range,
missing, extra or of the wrong kind, on any of the seven heads, and texts of more than 255 bytes stand for none, and
every instruction a line stands for is well formed. -/
def Obligations.RequestLines : Prop :=
  (∀ pin value : Nat, assemble ⟨.ledControl, [.num pin, .num value]⟩ =
    if pin < 256 ∧ value < 2 then some (.ledControl (BitVec.ofNat 8 pin) (BitVec.ofNat 1 value)) else none) ∧
  (∀ channel : Nat, assemble ⟨.sensorRead, [.num channel]⟩ =
    if channel < 256 then some (.sensorRead (BitVec.ofNat 8 channel)) else none) ∧
  (∀ pin : Nat, assemble ⟨.ledRead, [.num pin]⟩ =
    if pin < 256 then some (.ledRead (BitVec.ofNat 8 pin)) else none) ∧
  (∀ elems : List Nat, (∀ n ∈ elems, n < 256) → elems.length ≤ 255 →
    assemble ⟨.print, [.text elems]⟩ = some (.print (elems.map (BitVec.ofNat 8)))) ∧
  (∀ elems : List Nat, 255 < elems.length → assemble ⟨.print, [.text elems]⟩ = none) ∧
  (∀ elems : List Nat, (∃ n ∈ elems, 256 ≤ n) → assemble ⟨.print, [.text elems]⟩ = none) ∧
  assemble ⟨.idRead, []⟩ = some .idRead ∧
  (∀ pin : Nat, assemble ⟨.ledOn, [.num pin]⟩ = assemble ⟨.ledControl, [.num pin, .num 1]⟩ ∧
    assemble ⟨.ledOff, [.num pin]⟩ = assemble ⟨.ledControl, [.num pin, .num 0]⟩) ∧
  (∀ l : ReqLine, ¬ operandsFit l → assemble l = none) ∧
  (∀ (l : ReqLine) (i : Instr), assemble l = some i → i.wellFormed = true)

/-- 30_encoding R72 and 60_exceptions R119 case 2: in HOST mode a request line that stands for no instruction is
refused and nothing else happens; any other is offered as a request that decodes to it. -/
def Obligations.RequestLineStep : Prop :=
  ∀ (u : State) (l : ReqLine), u.cfg.wellFormed = true → u.cfg.reqSource = .host →
    (assemble l = none → ∃ t, step (u.withChoice (.line l)) = .next t ∧ RefusedInput.requestLine ∈ t.refusals ∧
      t = { u with refusals := t.refusals }) ∧
    (∀ i, assemble l = some i → u.slot.valid = false →
      ∃ req, decodeRequest req = .ok i ∧ step (u.withChoice (.line l)) = .next { u with slot := ⟨true, req⟩ })

/-! ### Rules of the whole machine -/

/-- 10_state R13, R15, R20: every register is written only by the steps its row names. Steps other than RESET. -/
def Obligations.RegisterWriters : Prop :=
  ∀ (u t : State) (e : Event), u.cfg.wellFormed = true → e ≠ .rst → step (u.withChoice e) = .next t →
    (t.eng.phase ≠ u.eng.phase → u.pheActsIn e [.idle, .opc, .stat, .out, .settle, .cap, .done]) ∧
    (t.eng.cmd ≠ u.eng.cmd → u.pheActsIn e [.idle]) ∧
    (t.eng.opc ≠ u.eng.opc → u.pheActsIn e [.idle]) ∧
    (t.eng.nout ≠ u.eng.nout → u.pheActsIn e [.idle]) ∧
    (t.eng.ncap ≠ u.eng.ncap → u.pheActsIn e [.idle]) ∧
    (t.eng.settle ≠ u.eng.settle → u.pheActsIn e [.idle]) ∧
    (t.eng.arg ≠ u.eng.arg → u.pheActsIn e [.idle]) ∧
    (t.eng.ack ≠ u.eng.ack → u.pheActsIn e [.idle, .stat]) ∧
    (t.eng.rsp ≠ u.eng.rsp → u.pheActsIn e [.cap]) ∧
    (t.eng.idx ≠ u.eng.idx → u.pheActsIn e [.idle, .stat, .out, .settle, .cap]) ∧
    (t.res.valid ≠ u.res.valid → u.pheActsIn e [.idle, .done]) ∧
    (t.res.cmd ≠ u.res.cmd → u.pheActsIn e [.done]) ∧
    (t.res.ack ≠ u.res.ack → u.pheActsIn e [.done]) ∧
    (t.res.count ≠ u.res.count → u.pheActsIn e [.done]) ∧
    (t.seq.state ≠ u.seq.state → u.pheActsIn e [.idle, .done]) ∧
    (t.seq.rot ≠ u.seq.rot → u.pheActsIn e [.done]) ∧
    (t.seq.trigPend ≠ u.seq.trigPend → e = .trig ∨ u.pheActsIn e [.idle]) ∧
    (t.slot ≠ u.slot → (∃ req, e = .offer req) ∨ (∃ l, e = .line l) ∨ u.pheActsIn e [.idle])

/-- 10_state R14: no step writes the parameters of the instance. -/
def Obligations.ConfigFixed : Prop :=
  ∀ s t : State, step s = .next t → t.cfg = s.cfg

/-- 10_state R29, 42_sequencer R105: in HOST mode the sequencer registers keep their reset values. -/
def Obligations.SequencerIdleInHost : Prop :=
  ∀ s t : State, s.cfg.reqSource = .host → s.seq = { state := .await, rot := 0, trigPend := false } →
    step s = .next t → t.seq = { state := .await, rot := 0, trigPend := false }

/-- 42_sequencer R112: in SEQ mode the PHE never issues ID_READ. -/
def Obligations.NoIdReadInSeq : Prop :=
  ∀ s t : State, s.cfg.reqSource = .seq → s.eng.cmd ≠ .idRead → step s = .next t → t.eng.cmd ≠ .idRead

/-- 20_memory R43, 41_commands R88: no rule depends on the bit order of the link or on the settle delay. -/
def Obligations.TimingUnread : Prop :=
  ∀ (s : State) (delay : Nat) (order : BitOrder),
    (∀ t, step s = .next t → step (s.retimed delay order) = .next (t.retimed delay order)) ∧
    (∀ f, step s = .fault f → step (s.retimed delay order) = .fault f)

/-- 60_exceptions R119: a recorded refusal stays in the state for good, and the step that records it changes nothing
else (the choice it took and the draws it made apart). -/
def Obligations.RefusalsStay : Prop :=
  ∀ (s t : State) (r : RefusedInput), step s = .next t →
    (r ∈ s.refusals → r ∈ t.refusals) ∧
    (r ∉ s.refusals → r ∈ t.refusals →
      t = { s with refusals := t.refusals, pending := t.pending, draws := t.draws })

/-- 00_scope R11, 20_memory R45, R46, 70_reset_and_hazards R137: a step makes at most one transceive. It makes one
exactly where the PHE acts in OPC, STAT, OUT or CAP, and then sends that phase's byte. -/
def Obligations.OneTransceive : Prop :=
  ∀ (u t : State) (e : Event), u.cfg.wellFormed = true → step (u.withChoice e) = .next t →
    (¬ u.pheActsIn e [.opc, .stat, .out, .cap] → t.trace.wire = u.trace.wire) ∧
    (∀ rx, e = .phe rx → u.eng.phase = .opc → t.trace.wire = u.trace.wire ++ [(u.eng.opc, rx)]) ∧
    (∀ rx, e = .phe rx → u.eng.phase = .stat → t.trace.wire = u.trace.wire ++ [(0xFF, rx)]) ∧
    (∀ rx, e = .phe rx → u.eng.phase = .cap → t.trace.wire = u.trace.wire ++ [(0xFF, rx)]) ∧
    (∀ rx, e = .phe rx → u.eng.phase = .out →
      ∃ tx, u.eng.arg[u.eng.idx.toNat]? = some tx ∧ t.trace.wire = u.trace.wire ++ [(tx, rx)])

/-- 41_commands R99: once a request has been taken, no input other than reset changes the Exchange, nor the instance
and the sequencer's place, on which the rest of it depends. -/
def Obligations.NoCancellation : Prop :=
  ∀ (u t : State) (e : Event), u.cfg.wellFormed = true → u.eng.phase ≠ .idle → e ≠ .rst → (∀ rx, e ≠ .phe rx) →
    step (u.withChoice e) = .next t →
    t.eng = u.eng ∧ t.res = u.res ∧ t.trace = u.trace ∧ t.cfg = u.cfg ∧
      t.seq.state = u.seq.state ∧ t.seq.rot = u.seq.rot

/-- 40_handshake R85: the inbound byte at k = 0 changes no state, whatever its value, and a status other than 0xF5
after it is Rejected. -/
def Obligations.DrainIgnored : Prop :=
  ∀ (u t t' : State) (rx rx' status : Byte), u.cfg.wellFormed = true → u.eng.phase = .opc →
    step (u.withChoice (.phe rx)) = .next t → step (u.withChoice (.phe rx')) = .next t' →
    t' = { t with trace := t'.trace } ∧
    (status ≠ 0xF5 → ∃ v, Sys2Proof.core.run 2 (u.withChoices [.phe rx, .phe status]) = .next v ∧
      v.eng.ack = false ∧ v.eng.phase = .done)

/-- 40_handshake R82: every status byte other than 0xF5 gives the same Rejected outcome and the same state; 0xF5 is
Acknowledged. -/
def Obligations.SilentPeer : Prop :=
  ∀ (u t t' : State) (status status' : Byte), u.cfg.wellFormed = true → u.eng.phase = .stat →
    step (u.withChoice (.phe status)) = .next t → step (u.withChoice (.phe status')) = .next t' →
    (status ≠ 0xF5 → status' ≠ 0xF5 → t.eng.ack = false ∧ t' = { t with trace := t'.trace }) ∧
    (status = 0xF5 → t.eng.ack = true)

/-- 40_handshake R81: after a Rejected gate no body transceive happens: STAT moves straight to DONE, and DONE
publishes the empty result. -/
def Obligations.RejectionEnds : Prop :=
  ∀ (u : State) (status rx : Byte), u.cfg.wellFormed = true → u.eng.phase = .stat → status ≠ 0xF5 →
    (u.cfg.reqSource = .seq → u.seq.state = .run) →
    (∃ t, step (u.withChoice (.phe status)) = .next t ∧ t.eng.phase = .done) ∧
    ∃ v, Sys2Proof.core.run 2 (u.withChoices [.phe status, .phe rx]) = .next v ∧
      v.eng.phase = .idle ∧ v.trace.wire = u.trace.wire ++ [(0xFF, status)] ∧
      v.res = { valid := true, cmd := u.eng.cmd, ack := false, count := 0 } ∧ v.resData = []

/-! ### Exchanges as a whole -/

/-- 30_encoding R67, 40_handshake R84, 41_commands R96, R101: EXCH is defined exactly where there are as many inbound
bytes as the Exchange has transceives; and the number of transceives, and the first two outbound bytes, of each. -/
def Obligations.TransceiveCounts : Prop :=
  ∀ (cfg : Config) (i : Instr) (rx : List Byte),
    ((∃ r, exch cfg i rx = some r) ↔ rx.length = transceiveCount cfg i (decide (rx[1]? = some 0xF5))) ∧
    ∀ r : ExchangeResult, exch cfg i rx = some r →
      r.tx.length = transceiveCount cfg i r.ack ∧ rx.length = r.tx.length ∧
      r.tx.take 2 = [cfg.opcode i.cmd, 0xFF] ∧ (r.ack = true ↔ rx[1]? = some 0xF5) ∧
      r.data.length = (if r.ack then (cfg.ncapOf i.cmd).toNat else 0)

/-- 41_commands R97: the body of an Acknowledged PRINT is the length byte, then the text in order. -/
def Obligations.PrintBody : Prop :=
  ∀ (cfg : Config) (text : List Byte) (rx : List Byte) (r : ExchangeResult), text.length ≤ 255 →
    exch cfg (.print text) rx = some r → r.ack = true →
    ∃ len : Byte, len.toNat = text.length ∧ r.tx.drop 2 = len :: text ∧ (r.tx.drop 2).length = 1 + text.length

/-- 41_commands R101, R103: in HOST mode the step rules from ACCEPT to the return to IDLE send exactly the bytes of
EXCH in order and leave its result, in `T + 2 + s` steps. That the slot keeps the accepted request word is the model's
choice (DESIGN CHOICE, log 15; 10_state R28 leaves it unspecified). -/
def Obligations.ExchangeRun : Prop :=
  ∀ (u : State) (i : Instr) (rx : List Byte) (r : ExchangeResult) (unused : Byte),
    u.cfg.wellFormed = true → u.cfg.reqSource = .host → u.eng.phase = .idle → u.slot.valid = true →
    decodeRequest u.slot.req = .ok i → exch u.cfg i rx = some r →
    ∃ t, Sys2Proof.core.run (engineSteps u.cfg i r.ack)
        (u.withChoices (exchangeEvents u.cfg i r.ack unused rx)) = .next t ∧
      t.trace.wire = u.trace.wire ++ r.tx.zip rx ∧
      t.trace.results = u.trace.results ++ [⟨i.cmd, r.ack, r.data⟩] ∧
      t.res = { valid := true, cmd := i.cmd, ack := r.ack, count := BitVec.ofNat 8 r.data.length } ∧
      t.resData = r.data ∧ t.eng.phase = .idle ∧ t.slot = { u.slot with valid := false } ∧
      t.seq = u.seq ∧ t.cfg = u.cfg ∧ t.refusals = u.refusals ∧ t.pending = u.pending ∧ t.draws = u.draws

/-- 42_sequencer R109, R110 and 41_commands R101: in SEQ mode a pending trigger in AWAIT leads through START, the
Exchange of the rotation's command and FINISH to AWAIT with the rotation advanced, whatever the outcome. -/
def Obligations.RotationRun : Prop :=
  ∀ (u : State) (i : Instr) (rx : List Byte) (r : ExchangeResult) (unused : Byte),
    u.cfg.wellFormed = true → u.cfg.reqSource = .seq → u.eng.phase = .idle → u.seq.state = .await →
    u.seq.trigPend = true → decodeRequest u.rotationRequest = .ok i → exch u.cfg i rx = some r →
    ∃ t, Sys2Proof.core.run (engineSteps u.cfg i r.ack)
        (u.withChoices (exchangeEvents u.cfg i r.ack unused rx)) = .next t ∧
      t.trace.wire = u.trace.wire ++ r.tx.zip rx ∧
      t.trace.results = u.trace.results ++ [⟨i.cmd, r.ack, r.data⟩] ∧
      t.res = { valid := true, cmd := i.cmd, ack := r.ack, count := BitVec.ofNat 8 r.data.length } ∧
      t.resData = r.data ∧ t.eng.phase = .idle ∧ t.slot.valid = false ∧
      t.seq = { state := .await, rot := u.seq.rot + 1, trigPend := false } ∧
      t.cfg = u.cfg ∧ t.refusals = u.refusals ∧ t.pending = u.pending ∧ t.draws = u.draws

/-- 41_commands R96, 42_sequencer R109, R110: the phases an Exchange goes through, one a step, and how many, from
ACCEPT in HOST mode and from START in SEQ mode. In SEQ mode the sequencer is in RUN throughout. -/
def Obligations.PhaseRun : Prop :=
  ∀ (u : State) (i : Instr) (rx : List Byte) (r : ExchangeResult) (unused : Byte),
    u.cfg.wellFormed = true → u.startsExchange i → exch u.cfg i rx = some r →
    (phaseSequence u.cfg i r.ack).length + 1 = engineSteps u.cfg i r.ack ∧
    (∀ (k : Nat) (p : Phase), (phaseSequence u.cfg i r.ack)[k]? = some p →
      ∃ t, Sys2Proof.core.run (k + 1) (u.withChoices (exchangeEvents u.cfg i r.ack unused rx)) = .next t ∧
        t.eng.phase = p ∧ (u.cfg.reqSource = .seq → t.seq.state = .run)) ∧
    ∃ t, Sys2Proof.core.run (engineSteps u.cfg i r.ack)
        (u.withChoices (exchangeEvents u.cfg i r.ack unused rx)) = .next t ∧
      t.eng.phase = .idle ∧ (u.cfg.reqSource = .seq → t.seq.state = .await)

/-- 30_encoding R59, R67: an observer of the wire reads the command, the outcome, the instruction and the captured
bytes of every Exchange, and finds its end. -/
def Obligations.ObserverReads : Prop :=
  ∀ (cfg : Config) (i : Instr) (rx : List Byte) (r : ExchangeResult) (rest : List (Byte × Byte)),
    cfg.wellFormed = true → i.wellFormed = true → exch cfg i rx = some r →
    decodeWire cfg (r.tx.zip rx ++ rest) =
      .ok ({ cmd := i.cmd, ack := r.ack, instr := if r.ack then some i else none, data := r.data }, rest)

/-! ### Invariants -/

/-- 10_state R36: the invariants hold in the state the model starts from, whatever the instance: with REQ_SOURCE = HOST
as with the SEQ of State.reset (log 1). -/
def Obligations.InvAtReset : Prop := State.reset.Inv ∧ ∀ cfg : Config, State.Inv { State.reset with cfg := cfg }

/-- 10_state R36: every step preserves the invariants, in every state that meets them. -/
def Obligations.InvPreserved : Prop := ∀ s t : State, s.Inv → step s = .next t → t.Inv

/-- 60_exceptions R116, 20_memory R41: in every state that meets the invariants the machine goes on: no step of the
PHE or of its environment stops it. -/
def Obligations.NoStop : Prop := ∀ s : State, s.Inv → s.goesOn

/-- 10_state R24, R25, R28, R37: no rule observes a byte of ARG or RSP that the Exchange did not write, or the request
word while none is offered: states that differ only there step to states that differ only there. -/
def Obligations.StaleBytesUnread : Prop :=
  ∀ s t s' : State, s.Inv → SameInUse s t → step s = .next s' → ∃ t', step t = .next t' ∧ SameInUse s' t'

/-! ### Status outputs, SEQ_ARGS, and steps of the other agents in between -/

/-- 10_state R28, 42_sequencer R115: `busy` and `req_ready` are the two sides of one condition. An acceptance sets
`busy` and clears `RES.valid`; `busy` changes only in the PHE's steps in IDLE and DONE and in a RESET; where it falls
otherwise than by a RESET a result is valid. After a RESET the port is ready. -/
def Obligations.StatusOutputs : Prop :=
  (∀ s : State, (s.busy = true ↔ s.eng.phase ≠ .idle) ∧ (s.reqReady = true ↔ s.eng.phase = .idle)) ∧
  (∀ (s t : State) (i : Instr), i.wellFormed = true → s.busy = false → exec i s = .next t →
    t.busy = true ∧ t.res.valid = false) ∧
  ∀ (u t : State) (e : Event), u.cfg.wellFormed = true → step (u.withChoice e) = .next t →
    (t.busy ≠ u.busy → e = .rst ∨ u.pheActsIn e [.idle, .done]) ∧
    (u.busy = true → t.busy = false → e ≠ .rst → t.res.valid = true) ∧
    (e = .rst → t.busy = false ∧ t.reqReady = true)

/-- 42_sequencer R111, 30_encoding R66: START with two tables SEQ_ARGS whose entries for the current command agree in
the fields that command uses starts the same Exchange: the states after it differ only in the table and in the request
word left in the slot. -/
def Obligations.IgnoredRotationFields : Prop :=
  ∀ (u t : State) (args : Vector SeqArg 4) (rx : Byte),
    u.cfg.wellFormed = true → u.cfg.reqSource = .seq → u.eng.phase = .idle → u.seq.state = .await →
    u.seq.trigPend = true → Request.agreesInUse u.rotationRequest (u.withSeqArgs args).rotationRequest →
    step (u.withChoice (.phe rx)) = .next t →
    ∃ t', step ((u.withSeqArgs args).withChoice (.phe rx)) = .next t' ∧
      t' = { t with cfg := { t.cfg with seqArgs := args }, slot := { t.slot with req := t'.slot.req } }

/-- 41_commands R99, R101, 00_scope R12: the same Exchange, whatever the other agents do in between. Where the PHE's
choices among `es` are those of an uninterrupted Exchange and no choice is a RESET, the machine sends the bytes of
EXCH in order, publishes its result once, and ends in IDLE, in SEQ mode with the rotation advanced by one. -/
def Obligations.InterleavedRun : Prop :=
  ∀ (u : State) (i : Instr) (rx : List Byte) (r : ExchangeResult) (unused : Byte) (es : List Event),
    u.cfg.wellFormed = true → u.startsExchange i → exch u.cfg i rx = some r →
    es.filter isPheEvent = exchangeEvents u.cfg i r.ack unused rx → Event.rst ∉ es →
    ∃ t, Sys2Proof.core.run es.length (u.withChoices es) = .next t ∧
      t.trace.wire = u.trace.wire ++ r.tx.zip rx ∧
      t.trace.results = u.trace.results ++ [⟨i.cmd, r.ack, r.data⟩] ∧
      t.res = { valid := true, cmd := i.cmd, ack := r.ack, count := BitVec.ofNat 8 r.data.length } ∧
      t.resData = r.data ∧ t.eng.phase = .idle ∧ t.cfg = u.cfg ∧ t.pending = u.pending ∧ t.draws = u.draws ∧
      (u.cfg.reqSource = .host → t.seq = u.seq) ∧
      (u.cfg.reqSource = .seq → t.seq.state = .await ∧ t.seq.rot = u.seq.rot + 1)
end

