-- ==== Sys2Proof/Laws/Decode.lean ====
section
/-! SUPPORT. The fields of a request word, and the ids of the commands. -/
namespace Sys2Proof

/-- The bits of a request word, field by field (30_encoding R55). -/
theorem word_getLsbD (tlen : Byte) (v : BitVec 1) (a : Byte) (c : BitVec 3) (text : Text) (k : Nat) :
    (Request.ofFields tlen v a c text).word.getLsbD k =
      if k < 3 then c.getLsbD k
      else if k - 3 < 8 then a.getLsbD (k - 3)
      else if k - 3 - 8 < 1 then v.getLsbD (k - 3 - 8)
      else tlen.getLsbD (k - 3 - 8 - 1) := by
  show (tlen ++ v ++ a ++ c : BitVec (8 + 1 + 8 + 3)).getLsbD k = _
  simp only [BitVec.getLsbD_append]

@[simp] theorem cmdField_ofFields (tlen : Byte) (v : BitVec 1) (a : Byte) (c : BitVec 3) (text : Text) :
    (Request.ofFields tlen v a c text).cmdField = c := by
  ext i hi
  simp only [Request.cmdField, BitVec.getElem_extractLsb', word_getLsbD, Nat.zero_add, if_pos hi]
  exact BitVec.getLsbD_eq_getElem hi

@[simp] theorem aField_ofFields (tlen : Byte) (v : BitVec 1) (a : Byte) (c : BitVec 3) (text : Text) :
    (Request.ofFields tlen v a c text).aField = a := by
  ext i hi
  simp only [Request.aField, BitVec.getElem_extractLsb', word_getLsbD, if_neg (show ¬ 3 + i < 3 by omega),
    show 3 + i - 3 = i by omega, if_pos hi]
  exact BitVec.getLsbD_eq_getElem hi

@[simp] theorem vField_ofFields (tlen : Byte) (v : BitVec 1) (a : Byte) (c : BitVec 3) (text : Text) :
    (Request.ofFields tlen v a c text).vField = v := by
  ext i hi
  simp only [Request.vField, BitVec.getElem_extractLsb', word_getLsbD, if_neg (show ¬ 11 + i < 3 by omega),
    if_neg (show ¬ 11 + i - 3 < 8 by omega), show 11 + i - 3 - 8 = i by omega, if_pos hi]
  exact BitVec.getLsbD_eq_getElem hi

@[simp] theorem tlenField_ofFields (tlen : Byte) (v : BitVec 1) (a : Byte) (c : BitVec 3) (text : Text) :
    (Request.ofFields tlen v a c text).tlenField = tlen := by
  ext i hi
  simp only [Request.tlenField, BitVec.getElem_extractLsb', word_getLsbD, if_neg (show ¬ 12 + i < 3 by omega),
    if_neg (show ¬ 12 + i - 3 < 8 by omega), if_neg (show ¬ 12 + i - 3 - 8 < 1 by omega),
    show 12 + i - 3 - 8 - 1 = i by omega]
  exact BitVec.getLsbD_eq_getElem hi

@[simp] theorem text_ofFields (tlen : Byte) (v : BitVec 1) (a : Byte) (c : BitVec 3) (text : Text) :
    (Request.ofFields tlen v a c text).text = text := rfl

@[simp] theorem textBytes_ofFields (tlen : Byte) (v : BitVec 1) (a : Byte) (c : BitVec 3) (text : Text) :
    (Request.ofFields tlen v a c text).textBytes = text.toList.take tlen.toNat := by
  simp [Request.textBytes]

@[simp] theorem ofId_id (c : Cmd) : Cmd.ofId c.id = some c := by cases c <;> rfl

/-- The ids that name no command are 5, 6 and 7. -/
theorem ofId_none {id : BitVec 3} : Cmd.ofId id = none ↔ 4 < id.toNat := by
  revert id; decide

end Sys2Proof
end

