-- ==== Sys2Proof/Laws/State.lean ====
section
/-! SUPPORT. One lemma per field of State for each update of the state, so that no proof unfolds a record update. -/
namespace Sys2Proof.Machine

/-! ### transceive -/

@[simp] theorem transceive_eng (tx rx : Byte) (s : State) : (s.transceive tx rx).eng = s.eng := rfl
@[simp] theorem transceive_res (tx rx : Byte) (s : State) : (s.transceive tx rx).res = s.res := rfl
@[simp] theorem transceive_seq (tx rx : Byte) (s : State) : (s.transceive tx rx).seq = s.seq := rfl
@[simp] theorem transceive_slot (tx rx : Byte) (s : State) : (s.transceive tx rx).slot = s.slot := rfl
@[simp] theorem transceive_cfg (tx rx : Byte) (s : State) : (s.transceive tx rx).cfg = s.cfg := rfl
@[simp] theorem transceive_refusals (tx rx : Byte) (s : State) : (s.transceive tx rx).refusals = s.refusals := rfl
@[simp] theorem transceive_pending (tx rx : Byte) (s : State) : (s.transceive tx rx).pending = s.pending := rfl
@[simp] theorem transceive_trace (tx rx : Byte) (s : State) : (s.transceive tx rx).trace = { s.trace with wire := s.trace.wire ++ [(tx, rx)] } := rfl
@[simp] theorem transceive_draws (tx rx : Byte) (s : State) : (s.transceive tx rx).draws = s.draws := rfl

/-! ### accept -/

@[simp] theorem accept_eng (c : Cmd) (body : List Byte) (s : State) : (s.accept c body).eng = s.eng.accept s.cfg c body := rfl
@[simp] theorem accept_res (c : Cmd) (body : List Byte) (s : State) : (s.accept c body).res = { s.res with valid := false } := rfl
@[simp] theorem accept_seq (c : Cmd) (body : List Byte) (s : State) : (s.accept c body).seq = s.seq := rfl
@[simp] theorem accept_slot (c : Cmd) (body : List Byte) (s : State) : (s.accept c body).slot = { s.slot with valid := false } := rfl
@[simp] theorem accept_cfg (c : Cmd) (body : List Byte) (s : State) : (s.accept c body).cfg = s.cfg := rfl
@[simp] theorem accept_refusals (c : Cmd) (body : List Byte) (s : State) : (s.accept c body).refusals = s.refusals := rfl
@[simp] theorem accept_pending (c : Cmd) (body : List Byte) (s : State) : (s.accept c body).pending = s.pending := rfl
@[simp] theorem accept_trace (c : Cmd) (body : List Byte) (s : State) : (s.accept c body).trace = s.trace := rfl
@[simp] theorem accept_draws (c : Cmd) (body : List Byte) (s : State) : (s.accept c body).draws = s.draws := rfl

/-! ### opcStep -/

@[simp] theorem opcStep_eng (rx : Byte) (s : State) : (opcStep rx s).eng = { s.eng with phase := .stat } := rfl
@[simp] theorem opcStep_res (rx : Byte) (s : State) : (opcStep rx s).res = s.res := rfl
@[simp] theorem opcStep_seq (rx : Byte) (s : State) : (opcStep rx s).seq = s.seq := rfl
@[simp] theorem opcStep_slot (rx : Byte) (s : State) : (opcStep rx s).slot = s.slot := rfl
@[simp] theorem opcStep_cfg (rx : Byte) (s : State) : (opcStep rx s).cfg = s.cfg := rfl
@[simp] theorem opcStep_refusals (rx : Byte) (s : State) : (opcStep rx s).refusals = s.refusals := rfl
@[simp] theorem opcStep_pending (rx : Byte) (s : State) : (opcStep rx s).pending = s.pending := rfl
@[simp] theorem opcStep_trace (rx : Byte) (s : State) : (opcStep rx s).trace = { s.trace with wire := s.trace.wire ++ [(s.eng.opc, rx)] } := rfl
@[simp] theorem opcStep_draws (rx : Byte) (s : State) : (opcStep rx s).draws = s.draws := rfl

/-! ### statStep -/

@[simp] theorem statStep_eng (rx : Byte) (s : State) : (statStep rx s).eng = s.eng.gated (gate rx) := rfl
@[simp] theorem statStep_res (rx : Byte) (s : State) : (statStep rx s).res = s.res := rfl
@[simp] theorem statStep_seq (rx : Byte) (s : State) : (statStep rx s).seq = s.seq := rfl
@[simp] theorem statStep_slot (rx : Byte) (s : State) : (statStep rx s).slot = s.slot := rfl
@[simp] theorem statStep_cfg (rx : Byte) (s : State) : (statStep rx s).cfg = s.cfg := rfl
@[simp] theorem statStep_refusals (rx : Byte) (s : State) : (statStep rx s).refusals = s.refusals := rfl
@[simp] theorem statStep_pending (rx : Byte) (s : State) : (statStep rx s).pending = s.pending := rfl
@[simp] theorem statStep_trace (rx : Byte) (s : State) : (statStep rx s).trace = { s.trace with wire := s.trace.wire ++ [(fillerSentinel, rx)] } := rfl
@[simp] theorem statStep_draws (rx : Byte) (s : State) : (statStep rx s).draws = s.draws := rfl

/-! ### settleStep -/

@[simp] theorem settleStep_eng (s : State) : (settleStep s).eng = if 0 < s.eng.ncap then { s.eng with idx := 0, phase := .cap } else { s.eng with phase := .done } := rfl
@[simp] theorem settleStep_res (s : State) : (settleStep s).res = s.res := rfl
@[simp] theorem settleStep_seq (s : State) : (settleStep s).seq = s.seq := rfl
@[simp] theorem settleStep_slot (s : State) : (settleStep s).slot = s.slot := rfl
@[simp] theorem settleStep_cfg (s : State) : (settleStep s).cfg = s.cfg := rfl
@[simp] theorem settleStep_refusals (s : State) : (settleStep s).refusals = s.refusals := rfl
@[simp] theorem settleStep_pending (s : State) : (settleStep s).pending = s.pending := rfl
@[simp] theorem settleStep_trace (s : State) : (settleStep s).trace = s.trace := rfl
@[simp] theorem settleStep_draws (s : State) : (settleStep s).draws = s.draws := rfl

/-! ### doneStep -/

@[simp] theorem doneStep_eng (s : State) : (doneStep s).eng = { s.eng with phase := .idle } := rfl
@[simp] theorem doneStep_res (s : State) : (doneStep s).res = s.eng.result := rfl
@[simp] theorem doneStep_seq (s : State) : (doneStep s).seq = s.seq := rfl
@[simp] theorem doneStep_slot (s : State) : (doneStep s).slot = s.slot := rfl
@[simp] theorem doneStep_cfg (s : State) : (doneStep s).cfg = s.cfg := rfl
@[simp] theorem doneStep_refusals (s : State) : (doneStep s).refusals = s.refusals := rfl
@[simp] theorem doneStep_pending (s : State) : (doneStep s).pending = s.pending := rfl
@[simp] theorem doneStep_trace (s : State) : (doneStep s).trace = { s.trace with results := s.trace.results ++
      [⟨s.eng.result.cmd, s.eng.result.ack, s.eng.rsp.toList.take s.eng.result.count.toNat⟩] } := rfl
@[simp] theorem doneStep_draws (s : State) : (doneStep s).draws = s.draws := rfl

/-! ### finishStep -/

@[simp] theorem finishStep_eng (s : State) : (finishStep s).eng = { s.eng with phase := .idle } := rfl
@[simp] theorem finishStep_res (s : State) : (finishStep s).res = s.eng.result := rfl
@[simp] theorem finishStep_seq (s : State) : (finishStep s).seq = { s.seq with rot := s.seq.rot + 1, state := .await } := rfl
@[simp] theorem finishStep_slot (s : State) : (finishStep s).slot = s.slot := rfl
@[simp] theorem finishStep_cfg (s : State) : (finishStep s).cfg = s.cfg := rfl
@[simp] theorem finishStep_refusals (s : State) : (finishStep s).refusals = s.refusals := rfl
@[simp] theorem finishStep_pending (s : State) : (finishStep s).pending = s.pending := rfl
@[simp] theorem finishStep_trace (s : State) : (finishStep s).trace = (doneStep s).trace := rfl
@[simp] theorem finishStep_draws (s : State) : (finishStep s).draws = s.draws := rfl

/-! ### presentRotation -/

@[simp] theorem presentRotation_eng (s : State) : (s.presentRotation).eng = s.eng := rfl
@[simp] theorem presentRotation_res (s : State) : (s.presentRotation).res = s.res := rfl
@[simp] theorem presentRotation_seq (s : State) : (s.presentRotation).seq = { s.seq with trigPend := false, state := .run } := rfl
@[simp] theorem presentRotation_slot (s : State) : (s.presentRotation).slot = { valid := true, req := s.rotationRequest } := rfl
@[simp] theorem presentRotation_cfg (s : State) : (s.presentRotation).cfg = s.cfg := rfl
@[simp] theorem presentRotation_refusals (s : State) : (s.presentRotation).refusals = s.refusals := rfl
@[simp] theorem presentRotation_pending (s : State) : (s.presentRotation).pending = s.pending := rfl
@[simp] theorem presentRotation_trace (s : State) : (s.presentRotation).trace = s.trace := rfl
@[simp] theorem presentRotation_draws (s : State) : (s.presentRotation).draws = s.draws := rfl

/-! ### placeRequest -/

@[simp] theorem placeRequest_eng (s : State) (req : Request) : (s.placeRequest req).eng = { s.eng with phase := .idle } := rfl
@[simp] theorem placeRequest_res (s : State) (req : Request) : (s.placeRequest req).res = s.res := rfl
@[simp] theorem placeRequest_seq (s : State) (req : Request) : (s.placeRequest req).seq = s.seq := rfl
@[simp] theorem placeRequest_slot (s : State) (req : Request) : (s.placeRequest req).slot = { valid := true, req := req } := rfl
@[simp] theorem placeRequest_cfg (s : State) (req : Request) : (s.placeRequest req).cfg = { s.cfg with reqSource := .host } := rfl
@[simp] theorem placeRequest_refusals (s : State) (req : Request) : (s.placeRequest req).refusals = s.refusals := rfl
@[simp] theorem placeRequest_pending (s : State) (req : Request) : (s.placeRequest req).pending = .phe 0 :: s.pending := rfl
@[simp] theorem placeRequest_trace (s : State) (req : Request) : (s.placeRequest req).trace = s.trace := rfl
@[simp] theorem placeRequest_draws (s : State) (req : Request) : (s.placeRequest req).draws = s.draws := rfl

/-! ### takeReset: the buffers and the request are free, so only their neighbours have a value -/

@[simp] theorem takeReset_res (s : State) : s.takeReset.res = State.reset.res := rfl
@[simp] theorem takeReset_seq (s : State) : s.takeReset.seq = State.reset.seq := rfl
@[simp] theorem takeReset_slot_valid (s : State) : s.takeReset.slot.valid = false := rfl
@[simp] theorem takeReset_cfg (s : State) : s.takeReset.cfg = s.cfg := rfl
@[simp] theorem takeReset_refusals (s : State) : s.takeReset.refusals = s.refusals := rfl
@[simp] theorem takeReset_pending (s : State) : s.takeReset.pending = s.pending := rfl
@[simp] theorem takeReset_trace (s : State) : s.takeReset.trace = s.trace := rfl
@[simp] theorem takeReset_draws (s : State) : s.takeReset.draws = s.draws + 1 := rfl
@[simp] theorem takeReset_eng_phase (s : State) : s.takeReset.eng.phase = .idle := rfl
@[simp] theorem takeReset_eng_cmd (s : State) : s.takeReset.eng.cmd = .ledControl := rfl
@[simp] theorem takeReset_eng_opc (s : State) : s.takeReset.eng.opc = 0 := rfl
@[simp] theorem takeReset_eng_ack (s : State) : s.takeReset.eng.ack = false := rfl
@[simp] theorem takeReset_eng_nout (s : State) : s.takeReset.eng.nout = 0 := rfl
@[simp] theorem takeReset_eng_ncap (s : State) : s.takeReset.eng.ncap = 0 := rfl
@[simp] theorem takeReset_eng_settle (s : State) : s.takeReset.eng.settle = false := rfl
@[simp] theorem takeReset_eng_idx (s : State) : s.takeReset.eng.idx = 0 := rfl

/-! ### refuse changes the recorded refusals only -/

@[simp] theorem refuse_eng (r : RefusedInput) (s : State) : (s.refuse r).eng = s.eng := by
  unfold State.refuse; split <;> rfl
@[simp] theorem refuse_res (r : RefusedInput) (s : State) : (s.refuse r).res = s.res := by
  unfold State.refuse; split <;> rfl
@[simp] theorem refuse_seq (r : RefusedInput) (s : State) : (s.refuse r).seq = s.seq := by
  unfold State.refuse; split <;> rfl
@[simp] theorem refuse_slot (r : RefusedInput) (s : State) : (s.refuse r).slot = s.slot := by
  unfold State.refuse; split <;> rfl
@[simp] theorem refuse_cfg (r : RefusedInput) (s : State) : (s.refuse r).cfg = s.cfg := by
  unfold State.refuse; split <;> rfl
@[simp] theorem refuse_pending (r : RefusedInput) (s : State) : (s.refuse r).pending = s.pending := by
  unfold State.refuse; split <;> rfl
@[simp] theorem refuse_trace (r : RefusedInput) (s : State) : (s.refuse r).trace = s.trace := by
  unfold State.refuse; split <;> rfl
@[simp] theorem refuse_draws (r : RefusedInput) (s : State) : (s.refuse r).draws = s.draws := by
  unfold State.refuse; split <;> rfl

theorem mem_refuse {r q : RefusedInput} {s : State} : q ∈ (s.refuse r).refusals ↔ q ∈ s.refusals ∨ q = r := by
  unfold State.refuse
  split
  · rename_i h; exact ⟨Or.inl, fun h' => h'.elim id (· ▸ h)⟩
  · simp

/-- A refusal changes nothing but the record of refusals. -/
theorem refuse_eq (r : RefusedInput) (s : State) :
    s.refuse r = { s with refusals := (s.refuse r).refusals } := by
  unfold State.refuse; split <;> rfl

end Sys2Proof.Machine
end

