-- ==== Sys2Proof/Laws/Ops.lean ====
section
/-! SUPPORT. What each shared operation can do, said once. -/
namespace Sys2Proof.Machine

/-! ### Buffers -/

theorem writeBytes_get {n : Nat} (buf : Vector Byte n) (bytes : List Byte) (k : Nat) (hk : k < n) :
    (writeBytes buf bytes)[k] = bytes[k]?.getD buf[k] := by
  simp [writeBytes]

/-- Inside the written range the buffer holds the new byte. -/
theorem writeBytes_inside {n : Nat} {buf : Vector Byte n} {bytes : List Byte} {k : Nat} {b : Byte} (hk : k < n)
    (hb : bytes[k]? = some b) : (writeBytes buf bytes)[k]? = some b := by
  rw [Vector.getElem?_eq_getElem hk, writeBytes_get _ _ _ hk, hb]; rfl

/-- Above the written range the buffer is as before. -/
theorem writeBytes_above {n : Nat} {buf : Vector Byte n} {bytes : List Byte} {k : Nat} (hk : bytes.length ≤ k) :
    (writeBytes buf bytes)[k]? = buf[k]? := by
  by_cases h : k < n
  · rw [Vector.getElem?_eq_getElem h, Vector.getElem?_eq_getElem h, writeBytes_get _ _ _ h,
      List.getElem?_eq_none hk]; rfl
  · rw [Vector.getElem?_eq_none (by omega), Vector.getElem?_eq_none (by omega)]

/-! ### AFTER_ARGS and the gate -/

/-- AFTER_ARGS leaves every engine register but the phase and, on entry to CAP, the index. -/
theorem afterArgs_cases (e : Eng) :
    (e.settle = true ∧ e.afterArgs = { e with phase := .settle }) ∨
    (e.settle = false ∧ 0 < e.ncap ∧ e.afterArgs = { e with phase := .cap, idx := 0 }) ∨
    (e.settle = false ∧ ¬ 0 < e.ncap ∧ e.afterArgs = { e with phase := .done }) := by
  unfold Eng.afterArgs
  cases e.settle
  · by_cases hn : 0 < e.ncap
    · exact .inr (.inl ⟨rfl, hn, if_pos hn⟩)
    · exact .inr (.inr ⟨rfl, hn, if_neg hn⟩)
  · exact .inl ⟨rfl, rfl⟩

theorem gate_true {b : Byte} : gate b = true ↔ b = ackSentinel := by simp [gate]

theorem gate_false {b : Byte} : gate b = false ↔ b ≠ ackSentinel := by simp [gate]

/-- What STAT can do: enter OUT, go on as AFTER_ARGS says, or end the Exchange. -/
theorem gated_cases (g : Bool) (e : Eng) :
    (g = true ∧ 0 < e.nout ∧ e.gated g = { e with ack := true, idx := 0, phase := .out }) ∨
    (g = true ∧ ¬ 0 < e.nout ∧ e.gated g = Eng.afterArgs { e with ack := true, idx := 0 }) ∨
    (g = false ∧ e.gated g = { e with ack := false, phase := .done }) := by
  cases g
  · exact .inr (.inr ⟨rfl, rfl⟩)
  · by_cases hn : 0 < e.nout
    · exact .inl ⟨rfl, hn, if_pos hn⟩
    · exact .inr (.inl ⟨rfl, hn, if_neg hn⟩)

/-- What OUT writes: the next index, and the next phase once the last byte is sent. -/
theorem sent_cases (e : Eng) :
    (e.idx + 1 = e.nout ∧ e.sent = Eng.afterArgs { e with idx := e.idx + 1 }) ∨
    (e.idx + 1 ≠ e.nout ∧ e.sent = { e with idx := e.idx + 1 }) := by
  by_cases h : e.idx + 1 = e.nout
  · exact .inl ⟨h, if_pos h⟩
  · exact .inr ⟨h, if_neg h⟩

/-- What CAP writes: the byte, the next index, and DONE once the last byte is captured. -/
theorem captured_cases (rx : Byte) (e : Eng) :
    (e.idx + 1 = e.ncap.setWidth 9 ∧
      e.captured rx = { e with rsp := e.rsp.setIfInBounds e.idx.toNat rx, idx := e.idx + 1, phase := .done }) ∨
    (e.idx + 1 ≠ e.ncap.setWidth 9 ∧
      e.captured rx = { e with rsp := e.rsp.setIfInBounds e.idx.toNat rx, idx := e.idx + 1 }) := by
  by_cases h : e.idx + 1 = e.ncap.setWidth 9
  · exact .inl ⟨h, if_pos h⟩
  · exact .inr ⟨h, if_neg h⟩

/-! ### What AFTER_ARGS, STAT, OUT and CAP leave as it was -/

@[simp] theorem afterArgs_cmd (e : Eng) : (e.afterArgs).cmd = e.cmd := by
  obtain ⟨-, h⟩ | ⟨-, -, h⟩ | ⟨-, -, h⟩ := afterArgs_cases e <;> rw [h]
@[simp] theorem afterArgs_opc (e : Eng) : (e.afterArgs).opc = e.opc := by
  obtain ⟨-, h⟩ | ⟨-, -, h⟩ | ⟨-, -, h⟩ := afterArgs_cases e <;> rw [h]
@[simp] theorem afterArgs_ack (e : Eng) : (e.afterArgs).ack = e.ack := by
  obtain ⟨-, h⟩ | ⟨-, -, h⟩ | ⟨-, -, h⟩ := afterArgs_cases e <;> rw [h]
@[simp] theorem afterArgs_nout (e : Eng) : (e.afterArgs).nout = e.nout := by
  obtain ⟨-, h⟩ | ⟨-, -, h⟩ | ⟨-, -, h⟩ := afterArgs_cases e <;> rw [h]
@[simp] theorem afterArgs_ncap (e : Eng) : (e.afterArgs).ncap = e.ncap := by
  obtain ⟨-, h⟩ | ⟨-, -, h⟩ | ⟨-, -, h⟩ := afterArgs_cases e <;> rw [h]
@[simp] theorem afterArgs_settle (e : Eng) : (e.afterArgs).settle = e.settle := by
  obtain ⟨-, h⟩ | ⟨-, -, h⟩ | ⟨-, -, h⟩ := afterArgs_cases e <;> rw [h]
@[simp] theorem afterArgs_arg (e : Eng) : (e.afterArgs).arg = e.arg := by
  obtain ⟨-, h⟩ | ⟨-, -, h⟩ | ⟨-, -, h⟩ := afterArgs_cases e <;> rw [h]
@[simp] theorem afterArgs_rsp (e : Eng) : (e.afterArgs).rsp = e.rsp := by
  obtain ⟨-, h⟩ | ⟨-, -, h⟩ | ⟨-, -, h⟩ := afterArgs_cases e <;> rw [h]

@[simp] theorem gated_cmd (g : Bool) (e : Eng) : (e.gated g).cmd = e.cmd := by
  obtain ⟨-, -, h⟩ | ⟨-, -, h⟩ | ⟨-, h⟩ := gated_cases g e <;> simp [h]
@[simp] theorem gated_opc (g : Bool) (e : Eng) : (e.gated g).opc = e.opc := by
  obtain ⟨-, -, h⟩ | ⟨-, -, h⟩ | ⟨-, h⟩ := gated_cases g e <;> simp [h]
@[simp] theorem gated_nout (g : Bool) (e : Eng) : (e.gated g).nout = e.nout := by
  obtain ⟨-, -, h⟩ | ⟨-, -, h⟩ | ⟨-, h⟩ := gated_cases g e <;> simp [h]
@[simp] theorem gated_ncap (g : Bool) (e : Eng) : (e.gated g).ncap = e.ncap := by
  obtain ⟨-, -, h⟩ | ⟨-, -, h⟩ | ⟨-, h⟩ := gated_cases g e <;> simp [h]
@[simp] theorem gated_settle (g : Bool) (e : Eng) : (e.gated g).settle = e.settle := by
  obtain ⟨-, -, h⟩ | ⟨-, -, h⟩ | ⟨-, h⟩ := gated_cases g e <;> simp [h]
@[simp] theorem gated_arg (g : Bool) (e : Eng) : (e.gated g).arg = e.arg := by
  obtain ⟨-, -, h⟩ | ⟨-, -, h⟩ | ⟨-, h⟩ := gated_cases g e <;> simp [h]
@[simp] theorem gated_rsp (g : Bool) (e : Eng) : (e.gated g).rsp = e.rsp := by
  obtain ⟨-, -, h⟩ | ⟨-, -, h⟩ | ⟨-, h⟩ := gated_cases g e <;> simp [h]

@[simp] theorem sent_cmd (e : Eng) : (e.sent).cmd = e.cmd := by
  obtain ⟨-, h⟩ | ⟨-, h⟩ := sent_cases e <;> simp [h]
@[simp] theorem sent_opc (e : Eng) : (e.sent).opc = e.opc := by
  obtain ⟨-, h⟩ | ⟨-, h⟩ := sent_cases e <;> simp [h]
@[simp] theorem sent_ack (e : Eng) : (e.sent).ack = e.ack := by
  obtain ⟨-, h⟩ | ⟨-, h⟩ := sent_cases e <;> simp [h]
@[simp] theorem sent_nout (e : Eng) : (e.sent).nout = e.nout := by
  obtain ⟨-, h⟩ | ⟨-, h⟩ := sent_cases e <;> simp [h]
@[simp] theorem sent_ncap (e : Eng) : (e.sent).ncap = e.ncap := by
  obtain ⟨-, h⟩ | ⟨-, h⟩ := sent_cases e <;> simp [h]
@[simp] theorem sent_settle (e : Eng) : (e.sent).settle = e.settle := by
  obtain ⟨-, h⟩ | ⟨-, h⟩ := sent_cases e <;> simp [h]
@[simp] theorem sent_arg (e : Eng) : (e.sent).arg = e.arg := by
  obtain ⟨-, h⟩ | ⟨-, h⟩ := sent_cases e <;> simp [h]
@[simp] theorem sent_rsp (e : Eng) : (e.sent).rsp = e.rsp := by
  obtain ⟨-, h⟩ | ⟨-, h⟩ := sent_cases e <;> simp [h]

@[simp] theorem captured_cmd (rx : Byte) (e : Eng) : (e.captured rx).cmd = e.cmd := by
  obtain ⟨-, h⟩ | ⟨-, h⟩ := captured_cases rx e <;> simp [h]
@[simp] theorem captured_opc (rx : Byte) (e : Eng) : (e.captured rx).opc = e.opc := by
  obtain ⟨-, h⟩ | ⟨-, h⟩ := captured_cases rx e <;> simp [h]
@[simp] theorem captured_ack (rx : Byte) (e : Eng) : (e.captured rx).ack = e.ack := by
  obtain ⟨-, h⟩ | ⟨-, h⟩ := captured_cases rx e <;> simp [h]
@[simp] theorem captured_nout (rx : Byte) (e : Eng) : (e.captured rx).nout = e.nout := by
  obtain ⟨-, h⟩ | ⟨-, h⟩ := captured_cases rx e <;> simp [h]
@[simp] theorem captured_ncap (rx : Byte) (e : Eng) : (e.captured rx).ncap = e.ncap := by
  obtain ⟨-, h⟩ | ⟨-, h⟩ := captured_cases rx e <;> simp [h]
@[simp] theorem captured_settle (rx : Byte) (e : Eng) : (e.captured rx).settle = e.settle := by
  obtain ⟨-, h⟩ | ⟨-, h⟩ := captured_cases rx e <;> simp [h]
@[simp] theorem captured_arg (rx : Byte) (e : Eng) : (e.captured rx).arg = e.arg := by
  obtain ⟨-, h⟩ | ⟨-, h⟩ := captured_cases rx e <;> simp [h]

@[simp] theorem captured_rsp (rx : Byte) (e : Eng) :
    (e.captured rx).rsp = e.rsp.setIfInBounds e.idx.toNat rx := by
  obtain ⟨-, h⟩ | ⟨-, h⟩ := captured_cases rx e <;> simp [h]

/-! ### The two steps that read or write a buffer -/

/-- OUT goes on exactly where its index is one of ARG. -/
theorem outStep_eq {rx tx : Byte} {s : State} (h : s.eng.arg[s.eng.idx.toNat]? = some tx) :
    outStep rx s = .next { s.transceive tx rx with eng := s.eng.sent } := by
  simp [outStep, h]

theorem outStep_next {rx : Byte} {s t : State} (h : outStep rx s = .next t) :
    ∃ tx, s.eng.arg[s.eng.idx.toNat]? = some tx ∧ t = { s.transceive tx rx with eng := s.eng.sent } := by
  unfold outStep at h
  split at h
  · rename_i tx htx
    exact ⟨tx, htx, by simpa using h.symm⟩
  · cases h

/-- CAP goes on exactly where its index is one of RSP. -/
theorem capStep_eq {rx : Byte} {s : State} (h : s.eng.idx.toNat < 255) :
    capStep rx s = .next { s.transceive fillerSentinel rx with eng := s.eng.captured rx } := by
  simp [capStep, h]

theorem capStep_next {rx : Byte} {s t : State} (h : capStep rx s = .next t) :
    s.eng.idx.toNat < 255 ∧ t = { s.transceive fillerSentinel rx with eng := s.eng.captured rx } := by
  unfold capStep at h
  split at h
  · rename_i hi
    exact ⟨hi, by simpa using h.symm⟩
  · cases h

/-! ### Acceptance -/

theorem startExchange_idle {c : Cmd} {body : List Byte} {s : State} (h : s.eng.phase = .idle) :
    startExchange c body s = .next (s.accept c body) := by
  simp [startExchange, h]

theorem startExchange_busy {c : Cmd} {body : List Byte} {s : State} (h : s.eng.phase ≠ .idle) :
    startExchange c body s = .next s := by
  simp [startExchange, h]

/-- Every command's meaning is one acceptance with that command's argument bytes. -/
theorem exec_wellFormed {i : Instr} (h : i.wellFormed = true) (s : State) :
    exec i s = startExchange i.cmd (argBytes i) s := by
  cases i with
  | print text =>
    have ht : text.length ≤ printMax := by simpa [Instr.wellFormed] using h
    simp [exec, execPrint, ht, Instr.cmd, argBytes]
  | _ => rfl

/-- A PRINT text that no request word can carry is refused. -/
theorem exec_illFormed {i : Instr} (h : i.wellFormed = false) (s : State) :
    exec i s = .next (s.refuse .requestLine) := by
  cases i with
  | print text =>
    have ht : ¬ text.length ≤ printMax := by simpa [Instr.wellFormed] using h
    simp [exec, execPrint, ht]
  | _ => simp [Instr.wellFormed] at h

/-- Every instruction the decoder gives is well formed. -/
theorem decodeRequest_wellFormed {r : Request} {i : Instr} (h : decodeRequest r = .ok i) : i.wellFormed = true := by
  unfold decodeRequest at h
  split at h <;> cases h <;> simp [Instr.wellFormed, Request.textBytes, printMax]

/-- ACCEPT of a request in IDLE: the command it names is accepted, or an id of 5, 6 or 7 is refused. -/
theorem acceptRequest_idle {s : State} (h : s.eng.phase = .idle) :
    (∃ i, decodeRequest s.slot.req = .ok i ∧ acceptRequest s = .next (s.accept i.cmd (argBytes i))) ∨
    ((∃ e, decodeRequest s.slot.req = .error e) ∧ acceptRequest s = .next (s.refuse .invalidCommand)) := by
  unfold acceptRequest
  cases hd : decodeRequest s.slot.req with
  | ok i =>
    refine .inl ⟨i, rfl, ?_⟩
    simp only [exec_wellFormed (decodeRequest_wellFormed hd), startExchange_idle h]
  | error e => exact .inr ⟨⟨e, rfl⟩, rfl⟩

end Sys2Proof.Machine
end

