-- ==== Sys2Proof/Laws/PerInstr.lean ====
section
/-! SUPPORT. Facts about each instruction as syntax. -/
namespace Sys2Proof

/-- The request of a well-formed instruction carries that instruction's command id, and its argument bytes fit the
argument buffer and the 9-bit count (30_encoding R57, 10_state R21, R24). -/
def Laws.RequestFits.Statement (i : Instr) : Prop :=
  i.wellFormed = true → (encodeRequest i).cmdField = i.cmd.id ∧ (Machine.argBytes i).length ≤ 256

theorem Laws.RequestFits.ledControl (pin : Byte) (value : BitVec 1) :
    Laws.RequestFits.Statement (.ledControl pin value) :=
  fun _ => ⟨cmdField_ofFields .., by simp [Machine.argBytes, Machine.ledControlBody]⟩

theorem Laws.RequestFits.sensorRead (channel : Byte) : Laws.RequestFits.Statement (.sensorRead channel) :=
  fun _ => ⟨cmdField_ofFields .., by simp [Machine.argBytes, Machine.sensorReadBody]⟩

theorem Laws.RequestFits.ledRead (pin : Byte) : Laws.RequestFits.Statement (.ledRead pin) :=
  fun _ => ⟨cmdField_ofFields .., by simp [Machine.argBytes, Machine.ledReadBody]⟩

theorem Laws.RequestFits.print (text : List Byte) : Laws.RequestFits.Statement (.print text) := by
  intro h
  have ht : text.length ≤ 255 := of_decide_eq_true h
  exact ⟨cmdField_ofFields .., by simp only [Machine.argBytes, Machine.printBody, List.length_cons]; omega⟩

theorem Laws.RequestFits.idRead : Laws.RequestFits.Statement .idRead :=
  fun _ => ⟨cmdField_ofFields .., by simp [Machine.argBytes, Machine.idReadBody]⟩

end Sys2Proof
end

