-- ==== Sys2Proof/Laws/Step.lean ====
section
/-! SUPPORT. What a step can do, said once: the moves of the PHE, then the moves of every agent. -/
namespace Sys2Proof.Machine

/-- The instruction START runs: ROT[SEQ.rot] with the arguments SEQ_ARGS[SEQ.rot]. -/
theorem rotation_decodes (s : State) :
    ∃ i, decodeRequest s.rotationRequest = .ok i ∧ i.cmd = rotation s.seq.rot := by
  unfold decodeRequest State.rotationRequest
  simp only [cmdField_ofFields, ofId_id]
  cases h : rotation s.seq.rot <;> exact ⟨_, rfl, rfl⟩

/-- The moves of the PHE: every way `pheStep` can answer a next state. -/
inductive PheMove (rx : Byte) (s : State) : State → Prop where
  | waitHost (hp : s.eng.phase = .idle) (hr : s.cfg.reqSource = .host) (hv : s.slot.valid = false) : PheMove rx s s
  | waitSeq (hp : s.eng.phase = .idle) (hr : s.cfg.reqSource = .seq)
      (hw : ¬ (s.seq.state = .await ∧ s.seq.trigPend = true)) : PheMove rx s s
  | accept (i : Instr) (hp : s.eng.phase = .idle) (hr : s.cfg.reqSource = .host) (hv : s.slot.valid = true)
      (hd : decodeRequest s.slot.req = .ok i) : PheMove rx s (s.accept i.cmd (argBytes i))
  | refuse (e : DecodeError) (hp : s.eng.phase = .idle) (hr : s.cfg.reqSource = .host) (hv : s.slot.valid = true)
      (hd : decodeRequest s.slot.req = .error e) : PheMove rx s (s.refuse .invalidCommand)
  | start (i : Instr) (hp : s.eng.phase = .idle) (hr : s.cfg.reqSource = .seq) (ha : s.seq.state = .await)
      (ht : s.seq.trigPend = true) (hd : decodeRequest s.rotationRequest = .ok i)
      (hc : i.cmd = rotation s.seq.rot) : PheMove rx s (s.presentRotation.accept i.cmd (argBytes i))
  | opc (hp : s.eng.phase = .opc) : PheMove rx s (opcStep rx s)
  | stat (hp : s.eng.phase = .stat) : PheMove rx s (statStep rx s)
  | out (tx : Byte) (hp : s.eng.phase = .out) (htx : s.eng.arg[s.eng.idx.toNat]? = some tx) :
      PheMove rx s { s.transceive tx rx with eng := s.eng.sent }
  | settle (hp : s.eng.phase = .settle) : PheMove rx s (settleStep s)
  | cap (hp : s.eng.phase = .cap) (hi : s.eng.idx.toNat < 255) :
      PheMove rx s { s.transceive fillerSentinel rx with eng := s.eng.captured rx }
  | done (hp : s.eng.phase = .done) (hr : s.cfg.reqSource = .host) : PheMove rx s (doneStep s)
  | finish (hp : s.eng.phase = .done) (hr : s.cfg.reqSource = .seq) (hs : s.seq.state = .run) :
      PheMove rx s (finishStep s)
  | unfinished (hp : s.eng.phase = .done) (hr : s.cfg.reqSource = .seq) (hs : s.seq.state ≠ .run) : PheMove rx s s

theorem hostIdle_move {rx : Byte} {s t : State} (hp : s.eng.phase = .idle) (hr : s.cfg.reqSource = .host)
    (h : hostIdleStep s = .next t) : PheMove rx s t := by
  unfold hostIdleStep at h
  split at h
  · rename_i hv
    obtain ⟨i, hd, ha⟩ | ⟨⟨e, hd⟩, ha⟩ := acceptRequest_idle hp
    · rw [ha] at h; cases h; exact .accept i hp hr hv hd
    · rw [ha] at h; cases h; exact .refuse e hp hr hv hd
  · rename_i hv
    cases h; exact .waitHost hp hr (by simpa using hv)

theorem seqIdle_move {rx : Byte} {s t : State} (hp : s.eng.phase = .idle) (hr : s.cfg.reqSource = .seq)
    (h : seqIdleStep s = .next t) : PheMove rx s t := by
  unfold seqIdleStep at h
  split at h
  · rename_i hw
    obtain ⟨i, hd, hc⟩ := rotation_decodes s
    obtain ⟨j, hj, ha⟩ | ⟨⟨e, he⟩, -⟩ := acceptRequest_idle (s := s.presentRotation) hp
    · rw [presentRotation_slot] at hj
      obtain rfl : i = j := by simpa [hd] using hj
      rw [ha] at h; cases h; exact .start i hp hr hw.1 hw.2 hd hc
    · rw [presentRotation_slot] at he
      simp [hd] at he
  · rename_i hw
    cases h; exact .waitSeq hp hr hw

/-- Every next state of the PHE's step is one of its moves. -/
theorem pheStep_move {rx : Byte} {s t : State} (h : pheStep rx s = .next t) : PheMove rx s t := by
  cases hp : s.eng.phase <;> simp only [pheStep, hp] at h
  case idle =>
    cases hr : s.cfg.reqSource <;> simp only [hr] at h
    · exact seqIdle_move hp hr h
    · exact hostIdle_move hp hr h
  case opc => cases h; exact .opc hp
  case stat => cases h; exact .stat hp
  case out => obtain ⟨tx, htx, rfl⟩ := outStep_next h; exact .out tx hp htx
  case settle => cases h; exact .settle hp
  case cap => obtain ⟨hi, rfl⟩ := capStep_next h; exact .cap hp hi
  case done =>
    cases hr : s.cfg.reqSource <;> simp only [hr] at h
    · unfold seqDoneStep at h
      split at h <;> cases h
      · exact .finish hp hr ‹_›
      · exact .unfinished hp hr ‹_›
    · cases h; exact .done hp hr

/-- The PHE's step stops only on a buffer index out of range. -/
theorem pheStep_total (rx : Byte) (s : State) (ho : s.eng.phase = .out → s.eng.idx.toNat < 256)
    (hc : s.eng.phase = .cap → s.eng.idx.toNat < 255) : ∃ t, pheStep rx s = .next t := by
  have hacc : ∀ u : State, u.eng.phase = .idle → ∃ t, acceptRequest u = .next t := fun u hu => by
    obtain ⟨i, -, h⟩ | ⟨-, h⟩ := acceptRequest_idle hu <;> exact ⟨_, h⟩
  cases hp : s.eng.phase <;> simp only [pheStep, hp]
  case idle =>
    cases hr : s.cfg.reqSource
    · simp only [seqIdleStep]
      split
      · exact hacc _ hp
      · exact ⟨_, rfl⟩
    · simp only [hostIdleStep]
      split
      · exact hacc _ hp
      · exact ⟨_, rfl⟩
  case out => exact ⟨_, outStep_eq (Vector.getElem?_eq_getElem (ho hp))⟩
  case cap => exact ⟨_, capStep_eq (hc hp)⟩
  case done =>
    cases s.cfg.reqSource
    · simp only [seqDoneStep]; split <;> exact ⟨_, rfl⟩
    · exact ⟨_, rfl⟩
  all_goals exact ⟨_, rfl⟩

/-! ### The agents around the PHE -/

theorem offerStep_cases (req : Request) (s : State) :
    offerStep req s = s ∨
    (s.cfg.reqSource = .host ∧ s.slot.valid = false ∧ offerStep req s = { s with slot := ⟨true, req⟩ }) := by
  unfold offerStep
  cases s.cfg.reqSource
  · exact .inl rfl
  · cases s.slot.valid
    · exact .inr ⟨rfl, rfl, rfl⟩
    · exact .inl rfl

theorem lineStep_cases (l : ReqLine) (s : State) :
    lineStep l s = s ∨ (s.cfg.reqSource = .host ∧ lineStep l s = s.refuse .requestLine) ∨
    (∃ i, assemble l = some i ∧ s.cfg.reqSource = .host ∧ lineStep l s = offerStep (encodeRequest i) s) := by
  unfold lineStep
  cases s.cfg.reqSource
  · exact .inl rfl
  · cases h : assemble l
    · exact .inr (.inl ⟨rfl, rfl⟩)
    · exact .inr (.inr ⟨_, rfl, rfl, rfl⟩)

theorem readStep_cases (r : HostRead) (s : State) :
    (s.hostView r ≠ none ∧ readStep r s = s) ∨ (s.hostView r = none ∧ readStep r s = s.refuse .hostRead) := by
  unfold readStep
  cases s.hostView r
  · exact .inr ⟨rfl, rfl⟩
  · exact .inl ⟨by simp, rfl⟩

theorem trigStep_cases (s : State) :
    (s.cfg.reqSource = .host ∧ trigStep s = s) ∨
    (s.cfg.reqSource = .seq ∧ trigStep s = { s with seq := { s.seq with trigPend := true } }) := by
  unfold trigStep
  cases s.cfg.reqSource
  · exact .inr ⟨rfl, rfl⟩
  · exact .inl ⟨rfl, rfl⟩

/-- The moves of every agent: every way `eventStep` can answer a next state. -/
inductive EventMove (s : State) : Event → State → Prop where
  | phe (rx : Byte) (t : State) (h : PheMove rx s t) : EventMove s (.phe rx) t
  | still (e : Event) (hp : ∀ rx, e ≠ .phe rx) (hr : e ≠ .rst) : EventMove s e s
  | trig (hr : s.cfg.reqSource = .seq) : EventMove s .trig { s with seq := { s.seq with trigPend := true } }
  | offer (e : Event) (req : Request) (he : (∃ q, e = .offer q) ∨ ∃ l, e = .line l) (hr : s.cfg.reqSource = .host)
      (hv : s.slot.valid = false) : EventMove s e { s with slot := ⟨true, req⟩ }
  | refuse (e : Event) (r : RefusedInput) (hp : ∀ rx, e ≠ .phe rx) (hx : e ≠ .rst) : EventMove s e (s.refuse r)
  | reset : EventMove s .rst s.takeReset

theorem eventStep_move {e : Event} {s t : State} (h : eventStep e s = .next t) : EventMove s e t := by
  cases e <;> simp only [eventStep, Host.Outcome.next.injEq] at h
  case phe rx => exact .phe rx t (pheStep_move h)
  case trig =>
    obtain ⟨-, hs⟩ | ⟨hr, hs⟩ := trigStep_cases s <;> rw [hs] at h <;> subst h
    · exact .still _ (by simp) (by simp)
    · exact .trig hr
  case offer req =>
    obtain hs | ⟨hr, hv, hs⟩ := offerStep_cases req s <;> rw [hs] at h <;> subst h
    · exact .still _ (by simp) (by simp)
    · exact .offer _ _ (.inl ⟨_, rfl⟩) hr hv
  case line l =>
    obtain hs | ⟨-, hs⟩ | ⟨i, -, -, hs⟩ := lineStep_cases l s <;> rw [hs] at h
    · subst h; exact .still _ (by simp) (by simp)
    · subst h; exact .refuse _ _ (by simp) (by simp)
    · obtain ho | ⟨hr, hv, ho⟩ := offerStep_cases (encodeRequest i) s <;> rw [ho] at h <;> subst h
      · exact .still _ (by simp) (by simp)
      · exact .offer _ _ (.inr ⟨_, rfl⟩) hr hv
  case read r =>
    obtain ⟨-, hs⟩ | ⟨-, hs⟩ := readStep_cases r s <;> rw [hs] at h <;> subst h
    · exact .still _ (by simp) (by simp)
    · exact .refuse _ _ (by simp) (by simp)
  case rst => subst h; exact .reset
  case quiet => subst h; exact .still _ (by simp) (by simp)

/-- What the step of a machine can do: refuse an ill-formed instance, or take the next choice's move. -/
theorem step_cases {s t : State} (h : step s = .next t) :
    (s.cfg.wellFormed = false ∧ t = s.refuse .illFormedInstance) ∨
    (s.cfg.wellFormed = true ∧ EventMove s.nextChoice.2 s.nextChoice.1 t) := by
  unfold step machineStep at h
  split at h
  · exact .inr ⟨‹_›, eventStep_move h⟩
  · rename_i hw
    exact .inl ⟨by simpa using hw, by simpa using h.symm⟩

/-- The state a choice acts on differs from the state before only in the choices left and the draws made. -/
theorem nextChoice_rest (s : State) :
    s.nextChoice.2 = { s with pending := s.nextChoice.2.pending, draws := s.nextChoice.2.draws } := by
  unfold State.nextChoice
  split <;> rfl

/-- The same without naming the choice: a step refuses an ill-formed instance, or is the move of some agent on a state
that differs only in the choices left and the draws made. -/
theorem step_move {s t : State} (h : step s = .next t) :
    t = s.refuse .illFormedInstance ∨ ∃ e p d, EventMove { s with pending := p, draws := d } e t := by
  obtain ⟨-, h⟩ | ⟨-, h⟩ := step_cases h
  · exact .inl h
  · rw [nextChoice_rest] at h
    exact .inr ⟨_, _, _, h⟩

end Sys2Proof.Machine
end

