-- ==== Sys2Proof/Tests/Slice0.lean ====
section
/-! SUPPORT. Tests: decoding of words written out from the spec, worked examples of the spec, the WellFormed smoke
test, and for every obligation with hypotheses a state and operands that meet them together. Expected values come
from 95_test_vectors.md and from the rules named. -/
namespace Sys2Proof.Tests
open Sys2Proof.Machine

/-! ### Small states -/

/-- The example instance of 42_sequencer R111. -/
def cfg (r : ReqSource) : Config where
  opcLedRead := 0x52
  opcIdRead := 0x54
  idLen := 10
  settleDelay := 0
  reqSource := r
  seqArgs := #v[⟨9, 1, 0, padText []⟩, ⟨0, 0, 0, padText []⟩, ⟨9, 0, 0, padText []⟩, ⟨0, 0, 2, padText [0x48, 0x69]⟩]
  chBitOrder := .msbFirst

/-- An instance that gives LED_READ the opcode of PRINT (70_reset_and_hazards R144). -/
def badCfg : Config := { cfg .host with opcLedRead := 0x53 }

/-- IDLE after reset. -/
def idle (r : ReqSource) : State := { State.reset with cfg := cfg r }

/-- IDLE in HOST mode with a request offered. -/
def offered (req : Request) : State := { idle .host with slot := ⟨true, req⟩ }

/-- AWAIT in SEQ mode with a trigger pending and the given place in the rotation. -/
def triggered (rot : BitVec 2) : State := { idle .seq with seq := ⟨.await, rot, true⟩ }

/-- A state in the given phase of a LED_READ. -/
def busy (r : ReqSource) (p : Phase) : State :=
  { idle r with
    eng := { State.reset.eng with phase := p, cmd := .ledRead, opc := 0x52, ack := true, nout := 1, ncap := 1 }
    seq := match r with
      | .seq => ⟨.run, 2, false⟩
      | .host => ⟨.await, 0, false⟩ }

/-- IDLE with a result of one byte. -/
def published : State := { idle .host with res := ⟨true, .ledRead, true, 1⟩ }

/-! ### Decoding (30_encoding R55, R57 to R60; 95_test_vectors 1 and 2.2) -/

theorem test_decode_ledControl :
    decodeRequest { word := 0x00848, text := padText [] } = .ok (.ledControl 9 1) := by rfl

theorem test_decode_sensorRead :
    decodeRequest { word := 0x00019, text := padText [] } = .ok (.sensorRead 3) := by rfl

theorem test_decode_ledRead :
    decodeRequest { word := 0x0004A, text := padText [] } = .ok (.ledRead 9) := by rfl

theorem test_decode_print_empty :
    decodeRequest { word := 0x00003, text := padText [0x48] } = .ok (.print []) := by rfl

theorem test_decode_idRead : decodeRequest { word := 0x00004, text := padText [] } = .ok .idRead := by rfl

theorem test_decode_ignores_tlen :
    decodeRequest { word := 0xFF848, text := padText [] } = .ok (.ledControl 9 1) := by rfl

theorem test_decode_invalid :
    decodeRequest { word := 0x00007, text := padText [] } = .error (.invalidCommand 7) := by rfl

theorem test_encode_pin_F5 : (encodeRequest (.ledControl 245 1)).word = 0x00FA8 := by decide

theorem test_encode_print_Hi : (encodeRequest (.print [0x48, 0x69])).word = 0x02003 := by decide

theorem test_opcodes :
    [Cmd.ledControl, .sensorRead, .ledRead, .print, .idRead].map Config.standard.opcode =
      [0x50, 0x51, 0x52, 0x53, 0x54] := by decide

theorem test_decoder_misses :
    [0x4F, 0x55, 0x00, 0xF5, 0xFF].map Config.standard.decoderPort = List.replicate 5 (false, 0) := by decide

theorem test_table_words :
    [0x50, 0x51, 0x52, 0x53, 0x54, 0x55].map (decodeTableWord 8) =
      [some (.ledControl 0 0), some (.sensorRead 0), some (.ledRead 0), some (.print []), some .idRead, none] := by
  decide

/-! ### WellFormed: an ill-formed term for each check -/

theorem test_illFormed_print : (Instr.print (List.replicate 256 0)).wellFormed = false := by decide +kernel

theorem test_illFormed_repeated_opcode : badCfg.wellFormed = false := by decide

theorem test_illFormed_ack_opcode : { cfg .host with opcIdRead := 0xF5 }.wellFormed = false := by decide

theorem test_illFormed_filler_opcode : { cfg .host with opcIdRead := 0xFF }.wellFormed = false := by decide

/-! ### Single steps and short forms from the spec's examples -/

theorem test_gate_flips :
    [0xF4, 0xF7, 0xF1, 0xFD, 0xE5, 0xD5, 0xB5, 0x75, 0x0A, 0xFF, 0x00, 0xF5].map gate =
      List.replicate 11 false ++ [true] := by decide

/-- 95_test_vectors 2.5, the row STAT of the step trace. -/
theorem test_stat_acknowledged :
    ((statStep 0xF5 (busy .host .stat)).eng.phase, (statStep 0xF5 (busy .host .stat)).trace.wire) =
      (.out, [(0xFF, 0xF5)]) := by decide

/-- 95_test_vectors 2.3 H2: a silent peer. -/
theorem test_stat_silent : (statStep 0xFF (busy .host .stat)).eng.phase = .done := by decide

/-- 95_test_vectors 1.1: OUT of Scenario A. -/
theorem test_exch_scenario_A :
    exch (cfg .host) (.ledControl 9 1) [7, 0xF5, 8, 9] = some ⟨[0x50, 0xFF, 0x09, 0x01], true, []⟩ := by decide

/-- 95_test_vectors 1.2: Scenario B. -/
theorem test_exch_scenario_B :
    exch (cfg .host) (.sensorRead 0) [7, 0x00] = some ⟨[0x51, 0xFF], false, []⟩ := by decide

/-- 95_test_vectors 2.5. -/
theorem test_exch_sensorRead :
    exch (cfg .host) (.sensorRead 3) [7, 0xF5, 8, 0xF5] = some ⟨[0x51, 0xFF, 0x03, 0xFF], true, [0xF5]⟩ := by
  decide

/-- 95_test_vectors 2.5. -/
theorem test_exch_ledRead :
    exch (cfg .host) (.ledRead 9) [7, 0xF5, 8, 0x05] = some ⟨[0x52, 0xFF, 0x09, 0xFF], true, [0x05]⟩ := by decide

/-- 95_test_vectors 1.3: Scenario C. -/
theorem test_exch_scenario_C :
    exch (cfg .host) (.print [0x48, 0x69]) [7, 0xF5, 1, 2, 3] = some ⟨[0x53, 0xFF, 0x02, 0x48, 0x69], true, []⟩ := by
  decide

/-- 95_test_vectors 2.7, the instance with ID_LEN = 1. -/
theorem test_exch_idRead :
    exch { cfg .host with idLen := 1 } .idRead [7, 0xF5, 0xF5] = some ⟨[0x54, 0xFF, 0xFF], true, [0xF5]⟩ := by
  decide

/-- 30_encoding R72, R73: a pseudo-request, read from its text. -/
theorem test_parse_led_on :
    parseLine "LED_ON 9 ; on".toList = some (.request ⟨.ledOn, [.num 9]⟩) ∧
    assemble ⟨.ledOn, [.num 9]⟩ = some (.ledControl 9 1) := by decide

/-- 30_encoding R72, R74: a byte list, a text, and a PEER line. -/
theorem test_parse_lines :
    parseLine "PRINT [0xF5, 255]".toList = some (.request ⟨.print, [.text [0xF5, 255]]⟩) ∧
    parseLine "PRINT \"Hi\"".toList = some (.request ⟨.print, [.text [0x48, 0x69]]⟩) ∧
    parseLine "PEER 00, F5".toList = some (.peer [0x00, 0xF5]) ∧ parseLine "PEER".toList = none := by decide

/-- 30_encoding R72: operands out of range, missing, extra. -/
theorem test_refused_lines :
    [⟨.ledControl, [.num 9, .num 2]⟩, ⟨.ledControl, [.num 256, .num 1]⟩, ⟨.ledControl, [.num 9]⟩,
      ⟨.idRead, [.num 0]⟩, ⟨.print, [.text [256]]⟩].map assemble = List.replicate 5 none := by decide

/-- The machine runs a table word as its first instruction (log 11). -/
theorem test_fetch_ledRead :
    step (State.reset.withFetchWord 8 0x52) = exec (.ledRead 0) { State.reset.withFetchWord 8 0x52 with pending := [] } :=
  rfl

/-! ### Witnesses: a state and operands that meet the hypotheses of each obligation together -/

theorem test_witness_wellFormed_config : (cfg .seq).wellFormed = true ∧ (cfg .host).wellFormed = true := by
  decide

theorem test_witness_OpcodeDecoder : (cfg .host).wellFormed = true ∧ (cfg .host).opcode .idRead = 0x54 := by
  decide

theorem test_witness_IllFormedInstanceRefused : { idle .host with cfg := badCfg }.cfg.wellFormed = false := by
  decide

theorem test_witness_DecodeFields :
    4 < ({ word := 5, text := padText [] } : Request).cmdField.toNat ∧
    4 < ({ word := 7, text := padText [] } : Request).cmdField.toNat := by decide

theorem test_witness_DecodeEncode :
    (Instr.print (List.replicate 255 0)).wellFormed = true ∧ (Instr.print []).wellFormed = true ∧
    Instr.idRead.wellFormed = true := by decide +kernel

theorem test_witness_IgnoredFields :
    ∃ t, Request.agreesInUse ⟨0x00848, padText []⟩ ⟨0xFF848, padText [1]⟩ ∧
      (idle .host).cfg.wellFormed = true ∧ (idle .host).cfg.reqSource = .host ∧ (idle .host).eng.phase = .idle ∧
      step (State.withChoice (.phe 0) { idle .host with slot := ⟨true, ⟨0x00848, padText []⟩⟩ }) = .next t :=
  ⟨_, ⟨by decide, by decide, by decide, by decide⟩, by decide, rfl, rfl, rfl⟩

theorem test_witness_StepTakesChoice : (idle .host).cfg.wellFormed = true ∧ (idle .host).pending = [] := by
  decide

theorem test_witness_StepRunsRequest :
    (offered ⟨0x00004, padText []⟩).cfg.wellFormed = true ∧ (offered ⟨0x00004, padText []⟩).cfg.reqSource = .host ∧
    (offered ⟨0x00004, padText []⟩).eng.phase = .idle ∧ (offered ⟨0x00004, padText []⟩).slot.valid = true ∧
    decodeRequest (offered ⟨0x00004, padText []⟩).slot.req = .ok .idRead :=
  ⟨by decide, rfl, rfl, rfl, rfl⟩

theorem test_witness_StepRunsRotation :
    (triggered 3).cfg.wellFormed = true ∧ (triggered 3).cfg.reqSource = .seq ∧ (triggered 3).eng.phase = .idle ∧
    (triggered 3).seq.state = .await ∧ (triggered 3).seq.trigPend = true := by decide

theorem test_witness_InvalidIdRefused :
    (offered ⟨0x00005, padText []⟩).cfg.wellFormed = true ∧ (offered ⟨0x00005, padText []⟩).cfg.reqSource = .host ∧
    (offered ⟨0x00005, padText []⟩).eng.phase = .idle ∧ (offered ⟨0x00005, padText []⟩).slot.valid = true ∧
    4 < (offered ⟨0x00005, padText []⟩).slot.req.cmdField.toNat := by decide

theorem test_witness_WaitsQuietly :
    ((idle .host).cfg.wellFormed = true ∧ (idle .host).eng.phase = .idle ∧ (idle .host).slot.valid = false) ∧
    ((idle .seq).cfg.wellFormed = true ∧ (idle .seq).eng.phase = .idle ∧ (idle .seq).seq.trigPend = false) := by
  decide

theorem test_witness_AcceptLedControl : (idle .host).eng.phase = .idle := rfl
theorem test_witness_AcceptSensorRead : (idle .seq).eng.phase = .idle := rfl
theorem test_witness_AcceptLedRead : (offered ⟨0x0004A, padText []⟩).eng.phase = .idle := rfl
theorem test_witness_AcceptPrint :
    (idle .host).eng.phase = .idle ∧ (List.replicate 255 (0 : Byte)).length ≤ 255 := by decide +kernel
theorem test_witness_LongPrintRefused : 255 < (List.replicate 256 (0 : Byte)).length := by decide +kernel
theorem test_witness_AcceptIdRead : published.eng.phase = .idle := rfl

theorem test_witness_HeldWhileBusy :
    (Instr.ledRead 9).wellFormed = true ∧ (busy .host .out).eng.phase ≠ .idle ∧
    ∃ t, { busy .host .out with slot := ⟨true, ⟨0x0004A, padText []⟩⟩ }.cfg.wellFormed = true ∧
      { busy .host .out with slot := ⟨true, ⟨0x0004A, padText []⟩⟩ }.slot.valid = true ∧ Event.phe 0 ≠ .rst ∧
      step (State.withChoice (.phe 0) { busy .host .out with slot := ⟨true, ⟨0x0004A, padText []⟩⟩ }) = .next t :=
  ⟨rfl, by decide, _, by decide, rfl, by decide, rfl⟩

theorem test_witness_OpcStep : (busy .seq .opc).cfg.wellFormed = true ∧ (busy .seq .opc).eng.phase = .opc := by
  decide

theorem test_witness_StatStep :
    ((busy .host .stat).cfg.wellFormed = true ∧ (busy .host .stat).eng.phase = .stat ∧
      0 < (busy .host .stat).eng.nout.toNat) ∧
    { busy .host .stat with eng := { (busy .host .stat).eng with nout := 0 } }.eng.nout = 0 := by decide

theorem test_witness_AfterArgs :
    (busy .host .out).eng.settle = false ∧ 0 < (busy .host .out).eng.ncap.toNat ∧
    { (busy .host .out).eng with settle := true }.settle = true ∧ { (busy .host .out).eng with ncap := 0 }.ncap = 0 ∧
    ∃ t, (idle .host).eng.phase = .idle ∧ Instr.idRead.wellFormed = true ∧ exec .idRead (idle .host) = .next t :=
  ⟨rfl, by decide, rfl, rfl, _, rfl, rfl, rfl⟩

theorem test_witness_OutStep :
    ((busy .host .out).cfg.wellFormed = true ∧ (busy .host .out).eng.phase = .out ∧
      (busy .host .out).eng.idx.toNat < 256 ∧ (busy .host .out).eng.idx.toNat + 1 = (busy .host .out).eng.nout.toNat) ∧
    ({ (busy .host .out).eng with nout := 256, idx := 255 }.idx.toNat < 256 ∧
      { (busy .host .out).eng with nout := 256, idx := 254 }.idx.toNat + 1 ≠ 256) := by decide

theorem test_witness_SettleStep :
    (busy .host .settle).cfg.wellFormed = true ∧ (busy .host .settle).eng.phase = .settle := by decide

theorem test_witness_CapStep :
    ((busy .host .cap).cfg.wellFormed = true ∧ (busy .host .cap).eng.phase = .cap ∧
      (busy .host .cap).eng.idx.toNat < 255) ∧
    { (busy .host .cap).eng with ncap := 255, idx := 254 }.idx.toNat < 255 := by decide

theorem test_witness_BufferBounds :
    (busy .host .out).cfg.wellFormed = true ∧
    256 ≤ { (busy .host .out).eng with idx := 256 }.idx.toNat ∧ { (busy .host .out).eng with idx := 256 }.phase = .out ∧
    255 ≤ { (busy .host .cap).eng with idx := 255 }.idx.toNat ∧ { (busy .host .cap).eng with idx := 255 }.phase = .cap := by
  decide

theorem test_witness_DoneStep :
    ((busy .host .done).cfg.wellFormed = true ∧ (busy .host .done).eng.phase = .done) ∧
    ((busy .seq .done).cfg.wellFormed = true ∧ (busy .seq .done).eng.phase = .done ∧
      (busy .seq .done).seq.state = .run) := by decide

theorem test_witness_TriggerLatch :
    ((busy .seq .out).cfg.wellFormed = true ∧ (busy .seq .out).cfg.reqSource = .seq) ∧
    ((idle .host).cfg.wellFormed = true ∧ (idle .host).cfg.reqSource = .host) := by decide

theorem test_witness_ResetValues : (busy .seq .cap).cfg.wellFormed = true := by decide
theorem test_witness_ResetFrame : (busy .host .stat).cfg.wellFormed = true := by decide

theorem test_witness_OfferStep :
    ((idle .host).cfg.wellFormed = true ∧ (idle .host).cfg.reqSource = .host ∧ (idle .host).slot.valid = false) ∧
    (offered ⟨0x0004A, padText []⟩).slot.valid = true ∧ (idle .seq).cfg.reqSource = .seq := by decide

theorem test_witness_HostReads :
    ((idle .host).cfg.wellFormed = true ∧ (idle .host).res.valid = false ∧ (idle .host).hostView .ack = none) ∧
    (published.cfg.wellFormed = true ∧ published.res.valid = true ∧ published.hostView (.data 0) ≠ none ∧
      published.hostView (.data 1) = none) := by decide

theorem test_witness_RequestLines :
    (∀ n ∈ List.replicate 255 255, n < 256) ∧ (List.replicate 255 255).length ≤ 255 ∧
    255 < (List.replicate 256 0).length ∧ assemble ⟨.idRead, []⟩ = some .idRead := by decide +kernel

/-- 30_encoding R72: an element out of range, and operands missing, extra or of the wrong kind on each head. -/
theorem test_witness_RequestLines_refused :
    (∃ n ∈ [255, 256], 256 ≤ n) ∧
    (¬ operandsFit ⟨.ledControl, [.num 9]⟩ ∧ ¬ operandsFit ⟨.sensorRead, []⟩ ∧ ¬ operandsFit ⟨.ledRead, [.text [9]]⟩ ∧
      ¬ operandsFit ⟨.print, [.num 9]⟩ ∧ ¬ operandsFit ⟨.idRead, [.num 0]⟩ ∧ ¬ operandsFit ⟨.ledOn, [.num 9, .num 1]⟩ ∧
      ¬ operandsFit ⟨.ledOff, []⟩) := by
  simp [operandsFit]

theorem test_witness_RequestLineStep :
    (idle .host).cfg.wellFormed = true ∧ (idle .host).cfg.reqSource = .host ∧
    assemble ⟨.ledRead, [.num 256]⟩ = none ∧ assemble ⟨.ledRead, [.num 255]⟩ = some (.ledRead 255) ∧
    (idle .host).slot.valid = false := by decide

theorem test_witness_RegisterWriters :
    ∃ t, (busy .seq .done).cfg.wellFormed = true ∧ Event.phe 0 ≠ .rst ∧
      step ((busy .seq .done).withChoice (.phe 0)) = .next t := ⟨_, by decide, by decide, rfl⟩

theorem test_witness_ConfigFixed : ∃ t, step ((busy .host .cap).withChoice (.phe 7)) = .next t := ⟨_, rfl⟩

theorem test_witness_SequencerIdleInHost :
    ∃ t, (idle .host).cfg.reqSource = .host ∧ ((idle .host).withChoice .trig).seq = ⟨.await, 0, false⟩ ∧
      step ((idle .host).withChoice .trig) = .next t := ⟨_, rfl, rfl, rfl⟩

theorem test_witness_NoIdReadInSeq :
    ∃ t, ((triggered 2).withChoice (.phe 0)).cfg.reqSource = .seq ∧ (triggered 2).eng.cmd ≠ .idRead ∧
      step ((triggered 2).withChoice (.phe 0)) = .next t := ⟨_, rfl, by decide, rfl⟩

theorem test_witness_TimingUnread :
    (∃ t, step ((busy .host .settle).withChoice (.phe 0)) = .next t) ∧
    step (State.withChoice (.phe 0) { busy .host .out with eng := { (busy .host .out).eng with idx := 256 } }) =
      .fault .argIndex := ⟨⟨_, rfl⟩, rfl⟩

theorem test_witness_RefusalsStay :
    ∃ t, step ((idle .host).withChoice (.read .ack)) = .next t ∧ RefusedInput.hostRead ∉ (idle .host).refusals ∧
      RefusedInput.hostRead ∈ t.refusals := ⟨_, rfl, by decide, by decide⟩

theorem test_witness_OneTransceive :
    (∃ t, (busy .host .opc).cfg.wellFormed = true ∧ (busy .host .opc).eng.phase = .opc ∧
      step ((busy .host .opc).withChoice (.phe 7)) = .next t) ∧
    (∃ t, (busy .host .stat).eng.phase = .stat ∧ step ((busy .host .stat).withChoice (.phe 7)) = .next t) ∧
    (∃ t, (busy .host .cap).eng.phase = .cap ∧ step ((busy .host .cap).withChoice (.phe 7)) = .next t) ∧
    (∃ t, (busy .host .out).eng.phase = .out ∧ step ((busy .host .out).withChoice (.phe 7)) = .next t) :=
  ⟨⟨_, by decide, rfl, rfl⟩, ⟨_, rfl, rfl⟩, ⟨_, rfl, rfl⟩, ⟨_, rfl, rfl⟩⟩

theorem test_witness_NoCancellation :
    ∃ t, (busy .host .out).cfg.wellFormed = true ∧ (busy .host .out).eng.phase ≠ .idle ∧ Event.quiet ≠ .rst ∧
      (∀ rx, Event.quiet ≠ .phe rx) ∧ step ((busy .host .out).withChoice .quiet) = .next t :=
  ⟨_, by decide, by decide, by decide, by simp, rfl⟩

theorem test_witness_DrainIgnored :
    ∃ t t', (busy .host .opc).cfg.wellFormed = true ∧ (busy .host .opc).eng.phase = .opc ∧
      step ((busy .host .opc).withChoice (.phe 0xF5)) = .next t ∧
      step ((busy .host .opc).withChoice (.phe 0x00)) = .next t' ∧ (0x00 : Byte) ≠ 0xF5 :=
  ⟨_, _, by decide, rfl, rfl, rfl, by decide⟩

theorem test_witness_SilentPeer :
    ∃ t t', (busy .host .stat).cfg.wellFormed = true ∧ (busy .host .stat).eng.phase = .stat ∧
      step ((busy .host .stat).withChoice (.phe 0xFF)) = .next t ∧
      step ((busy .host .stat).withChoice (.phe 0x00)) = .next t' ∧ (0xFF : Byte) ≠ 0xF5 ∧ (0x00 : Byte) ≠ 0xF5 :=
  ⟨_, _, by decide, rfl, rfl, rfl, by decide, by decide⟩

theorem test_witness_RejectionEnds :
    (busy .seq .stat).cfg.wellFormed = true ∧ (busy .seq .stat).eng.phase = .stat ∧ (0xF4 : Byte) ≠ 0xF5 ∧
    (busy .seq .stat).seq.state = .run := by decide

theorem test_witness_TransceiveCounts :
    exch (cfg .host) (.print []) [0, 0xF5, 0] = some ⟨[0x53, 0xFF, 0x00], true, []⟩ ∧
    exch (cfg .host) (.print []) [0, 0xF5] = none ∧ exch (cfg .host) (.print []) [0, 0x00, 0] = none := by decide

theorem test_witness_PrintBody :
    ([0x41] : List Byte).length ≤ 255 ∧
    ∃ r, exch (cfg .host) (.print [0x41]) [0, 0xF5, 0, 0] = some r ∧ r.ack = true := ⟨by decide, _, rfl, rfl⟩

theorem test_witness_ExchangeRun :
    ∃ r, (offered ⟨0x00001, padText []⟩).cfg.wellFormed = true ∧ (offered ⟨0x00001, padText []⟩).cfg.reqSource = .host ∧
      (offered ⟨0x00001, padText []⟩).eng.phase = .idle ∧ (offered ⟨0x00001, padText []⟩).slot.valid = true ∧
      decodeRequest (offered ⟨0x00001, padText []⟩).slot.req = .ok (.sensorRead 0) ∧
      exch (cfg .host) (.sensorRead 0) [0, 0xF5, 0, 0x7A] = some r ∧ r.data = [0x7A] :=
  ⟨_, by decide, rfl, rfl, rfl, rfl, rfl, rfl⟩

theorem test_witness_RotationRun :
    ∃ r, (triggered 2).cfg.wellFormed = true ∧ (triggered 2).cfg.reqSource = .seq ∧ (triggered 2).eng.phase = .idle ∧
      (triggered 2).seq.state = .await ∧ (triggered 2).seq.trigPend = true ∧
      decodeRequest (triggered 2).rotationRequest = .ok (.ledRead 9) ∧
      exch (cfg .seq) (.ledRead 9) [0, 0xF5, 0, 1] = some r :=
  ⟨_, by decide, rfl, rfl, rfl, rfl, rfl, rfl⟩

theorem test_witness_PhaseRun :
    (∃ r, (offered ⟨0x00848, padText []⟩).cfg.wellFormed = true ∧
      (offered ⟨0x00848, padText []⟩).startsExchange (.ledControl 9 1) ∧
      exch (cfg .host) (.ledControl 9 1) [0, 0x00] = some r) ∧
    (∃ r, (triggered 1).cfg.wellFormed = true ∧ (triggered 1).startsExchange (.sensorRead 0) ∧
      exch (cfg .seq) (.sensorRead 0) [0, 0xF5, 0, 0x7A] = some r) :=
  ⟨⟨_, by decide, ⟨rfl, .inl ⟨rfl, rfl, rfl⟩⟩, rfl⟩, ⟨_, by decide, ⟨rfl, .inr ⟨rfl, rfl, rfl, rfl⟩⟩, rfl⟩⟩

theorem test_witness_ObserverReads :
    ∃ r, (cfg .host).wellFormed = true ∧ (Instr.print [0x48]).wellFormed = true ∧
      exch (cfg .host) (.print [0x48]) [0, 0xF5, 0, 0] = some r := ⟨_, by decide, rfl, rfl⟩

theorem test_witness_StatusOutputs :
    (∃ t, Instr.idRead.wellFormed = true ∧ (idle .host).busy = false ∧ exec .idRead (idle .host) = .next t) ∧
    (∃ t, (busy .seq .done).cfg.wellFormed = true ∧ step ((busy .seq .done).withChoice (.phe 0)) = .next t ∧
      (busy .seq .done).busy = true ∧ t.busy = false ∧ Event.phe 0 ≠ .rst) ∧
    (∃ t, step ((busy .seq .cap).withChoice .rst) = .next t) :=
  ⟨⟨_, rfl, rfl, rfl⟩, ⟨_, by decide, rfl, rfl, rfl, by decide⟩, ⟨_, rfl⟩⟩

/-- Two tables that differ in what SENSOR_READ ignores. -/
theorem test_witness_IgnoredRotationFields :
    ∃ t, (triggered 1).cfg.wellFormed = true ∧ (triggered 1).cfg.reqSource = .seq ∧ (triggered 1).eng.phase = .idle ∧
      (triggered 1).seq.state = .await ∧ (triggered 1).seq.trigPend = true ∧
      Request.agreesInUse (triggered 1).rotationRequest
        ((triggered 1).withSeqArgs (Vector.replicate 4 ⟨0, 1, 7, padText []⟩)).rotationRequest ∧
      step ((triggered 1).withChoice (.phe 0)) = .next t :=
  ⟨_, by decide, rfl, rfl, rfl, rfl, ⟨by decide, by decide, by decide, by decide⟩, rfl⟩

/-- A rejected SENSOR_READ of the rotation with a trigger, a host read and a quiet step in between. -/
theorem test_witness_InterleavedRun :
    ∃ r, (triggered 1).cfg.wellFormed = true ∧ (triggered 1).startsExchange (.sensorRead 0) ∧
      exch (cfg .seq) (.sensorRead 0) [7, 0x00] = some r ∧
      [Event.trig, .phe 3, .phe 7, .read .ack, .phe 0x00, .trig, .quiet, .phe 3].filter isPheEvent =
        exchangeEvents (cfg .seq) (.sensorRead 0) r.ack 3 [7, 0x00] ∧
      Event.rst ∉ [Event.trig, .phe 3, .phe 7, .read .ack, .phe 0x00, .trig, .quiet, .phe 3] :=
  ⟨_, by decide, ⟨rfl, .inr ⟨rfl, rfl, rfl, rfl⟩⟩, rfl, by decide, by decide⟩

/-- A LED_READ in HOST mode before its opcode is sent, with the next choice given. -/
def started (e : Event) : State :=
  State.withChoice e { busy .host .opc with eng := { (busy .host .opc).eng with ack := false } }

/-- It meets the invariants. -/
theorem started_inv (e : Event) : (started e).Inv where
  rule := ⟨by simp [started, State.withChoice, busy, idle, cfg], by simp [started, State.withChoice, busy, idle, cfg],
    by simp [started, State.withChoice, busy], by simp [started, State.withChoice, busy],
    by simp [started, State.withChoice, busy], by simp [started, State.withChoice, busy],
    by simp [started, State.withChoice, busy, State.reset]⟩
  support := ⟨by simp [started, State.withChoice, busy, idle, State.reset],
    by simp [started, State.withChoice, busy, idle, cfg],
    by simp [started, State.withChoice, busy, idle, State.reset], by simp [started, State.withChoice, busy, State.reset],
    by simp [started, State.withChoice, busy], by simp [started, State.withChoice, busy],
    by simp [started, State.withChoice]⟩

theorem test_witness_InvPreserved : ∃ t, (started (.phe 7)).Inv ∧ step (started (.phe 7)) = .next t :=
  ⟨_, started_inv _, rfl⟩

theorem test_witness_NoStop : (started (.phe 7)).Inv := started_inv _

/-- Two states that differ in elements of RSP that nobody may read. -/
theorem test_witness_StaleBytesUnread :
    ∃ t s', (started (.phe 7)).Inv ∧ SameInUse (started (.phe 7)) t ∧ t.eng.rsp[0]? ≠ (started (.phe 7)).eng.rsp[0]? ∧
      step (started (.phe 7)) = .next s' :=
  ⟨{ started (.phe 7) with eng := { (started (.phe 7)).eng with rsp := Vector.replicate 255 1 } }, _, started_inv _,
    { eng := rfl, arg := fun _ _ => rfl, rsp := fun _ h => absurd h (Nat.not_lt_zero _), res := rfl, seq := rfl,
      valid := rfl, req := fun _ => rfl, cfg := rfl, refusals := rfl, pending := rfl, trace := rfl, draws := rfl },
    by decide, rfl⟩

end Sys2Proof.Tests
end

section
/-! What a step with a given choice is, what the PHE's step is in each transceiving phase, and what each agent's move
does to the wire. -/
namespace Sys2Proof.Machine

/-! ### The step of the next choice -/

/-- In a well-formed instance the choice at the head of the pending list is the one that acts. -/
theorem step_withChoice {u : State} (hw : u.cfg.wellFormed = true) (e : Event) :
    step (u.withChoice e) = eventStep e u :=
  if_pos hw

/-- In a well-formed instance with no pending choice a free one acts, and the draw is counted. -/
theorem step_of_pending_nil {u : State} (hw : u.cfg.wellFormed = true) (hp : u.pending = []) :
    step u = eventStep (Config.nextEvent u.draws) { u with draws := u.draws + 1 } := by
  have hc : u.nextChoice = (Config.nextEvent u.draws, { u with draws := u.draws + 1 }) := by
    simp [State.nextChoice, hp]
  simp [step, machineStep, hw, hc]

/-- Settles O9: the pending choice, or the free one, is what `machineStep` hands to `eventStep`. -/
theorem stepTakesChoice : Obligations.StepTakesChoice :=
  fun _ e hw => ⟨step_withChoice hw e, step_of_pending_nil hw⟩

/-! ### The PHE's step in the transceiving phases -/

theorem pheStep_opc {s : State} (hp : s.eng.phase = .opc) (rx : Byte) : pheStep rx s = .next (opcStep rx s) := by
  simp [pheStep, hp]

theorem pheStep_stat {s : State} (hp : s.eng.phase = .stat) (rx : Byte) : pheStep rx s = .next (statStep rx s) := by
  simp [pheStep, hp]

theorem pheStep_out {s : State} (hp : s.eng.phase = .out) (rx : Byte) : pheStep rx s = outStep rx s := by
  simp [pheStep, hp]

theorem pheStep_cap {s : State} (hp : s.eng.phase = .cap) (rx : Byte) : pheStep rx s = capStep rx s := by
  simp [pheStep, hp]

/-! ### What a move does to the wire -/

/-- Outside OPC, STAT, OUT and CAP the PHE makes no transceive (00_scope R11, 10_state R17). -/
theorem PheMove.wire_eq {rx : Byte} {s t : State} (h : PheMove rx s t)
    (hp : s.eng.phase ∉ [Phase.opc, .stat, .out, .cap]) : t.trace.wire = s.trace.wire := by
  cases h with
  | opc h | stat h | out _ h | cap h => simp [h] at hp
  | waitHost | waitSeq | unfinished => rfl
  | accept | start | settle | done | finish => rfl
  | refuse => rw [refuse_trace]

/-- No agent but the PHE reaches the wire, and the PHE only in its transceiving phases (70_reset_and_hazards R137). -/
theorem EventMove.wire_eq {e : Event} {s t : State} (h : EventMove s e t)
    (hp : ¬ s.pheActsIn e [.opc, .stat, .out, .cap]) : t.trace.wire = s.trace.wire := by
  cases h with
  | phe rx _ hm => exact hm.wire_eq fun hmem => hp ⟨hmem, rx, rfl⟩
  | still | trig | offer | reset => rfl
  | refuse => rw [refuse_trace]

/-- Settles O42: off the transceiving phases by `EventMove.wire_eq`, in each of them by that phase's own step. -/
theorem oneTransceive : Obligations.OneTransceive := by
  intro u t e hw hstep
  rw [step_withChoice hw] at hstep
  refine ⟨(eventStep_move hstep).wire_eq, ?opc, ?stat, ?cap, ?out⟩
  all_goals
    rintro rx rfl hp
    change pheStep rx u = .next t at hstep
  case opc =>
    rw [pheStep_opc hp] at hstep
    cases hstep; rfl
  case stat =>
    rw [pheStep_stat hp] at hstep
    cases hstep; rfl
  case cap =>
    rw [pheStep_cap hp] at hstep
    obtain ⟨-, rfl⟩ := capStep_next hstep
    rfl
  case out =>
    rw [pheStep_out hp] at hstep
    obtain ⟨tx, htx, rfl⟩ := outStep_next hstep
    exact ⟨tx, htx, rfl⟩

end Sys2Proof.Machine
end

section
/-! The statements of 10_state: what each move leaves as it was, who writes which register, the host's offers and
reads, the status outputs, the invariants of R36, and the bytes that no rule observes. -/
namespace Sys2Proof.Machine

/-! ### What every move leaves as it was -/

section
variable {rx : Byte} {e : Event} {s t : State}

theorem PheMove.cfg_eq (h : PheMove rx s t) : t.cfg = s.cfg := by
  cases h with
  | refuse => exact refuse_cfg ..
  | _ => rfl

theorem EventMove.cfg_eq (h : EventMove s e t) : t.cfg = s.cfg := by
  cases h with
  | phe _ _ hm => exact hm.cfg_eq
  | refuse => exact refuse_cfg ..
  | _ => rfl

/-- In HOST mode the PHE writes no sequencer register: START and FINISH are moves of SEQ mode (10_state R29). -/
theorem PheMove.seq_eq_of_host (h : PheMove rx s t) (hr : s.cfg.reqSource = .host) : t.seq = s.seq := by
  cases h with
  | start _ _ hq | finish _ hq => simp [hr] at hq
  | refuse => exact refuse_seq ..
  | _ => rfl

/-- In HOST mode no agent takes the sequencer registers out of their reset values (42_sequencer R105). -/
theorem EventMove.seq_reset_of_host (h : EventMove s e t) (hr : s.cfg.reqSource = .host)
    (hs : s.seq = State.reset.seq) : t.seq = State.reset.seq := by
  cases h with
  | phe _ _ hm => rw [hm.seq_eq_of_host hr, hs]
  | trig hq => simp [hr] at hq
  | refuse => rw [refuse_seq, hs]
  | still | offer => exact hs
  | reset => rfl

@[simp] theorem Eng.accept_rsp (cfg : Config) (c : Cmd) (body : List Byte) (e : Eng) :
    (e.accept cfg c body).rsp = e.rsp := rfl

/-- What SETTLE can do: enter CAP, or end the Exchange where nothing is captured (41_commands R88). -/
theorem settleStep_cases (s : State) :
    (0 < s.eng.ncap ∧ settleStep s = { s with eng := { s.eng with idx := 0, phase := .cap } }) ∨
    (¬ 0 < s.eng.ncap ∧ settleStep s = { s with eng := { s.eng with phase := .done } }) := by
  by_cases h : 0 < s.eng.ncap
  · exact .inl ⟨h, by simp only [settleStep, if_pos h]⟩
  · exact .inr ⟨h, by simp only [settleStep, if_neg h]⟩

theorem afterArgs_phase_ne_idle (e : Eng) : e.afterArgs.phase ≠ .idle := by
  obtain ⟨-, h⟩ | ⟨-, -, h⟩ | ⟨-, -, h⟩ := afterArgs_cases e <;> simp [h]

theorem gated_phase_ne_idle (g : Bool) (e : Eng) : (e.gated g).phase ≠ .idle := by
  obtain ⟨-, -, h⟩ | ⟨-, -, h⟩ | ⟨-, h⟩ := gated_cases g e <;> simp [h, afterArgs_phase_ne_idle]

theorem sent_phase_ne_idle {e : Eng} (hp : e.phase ≠ .idle) : e.sent.phase ≠ .idle := by
  obtain ⟨-, h⟩ | ⟨-, h⟩ := sent_cases e <;> simp [h, hp, afterArgs_phase_ne_idle]

theorem captured_phase_ne_idle {e : Eng} (hp : e.phase ≠ .idle) : (e.captured rx).phase ≠ .idle := by
  obtain ⟨-, h⟩ | ⟨-, h⟩ := captured_cases rx e <;> simp [h, hp]

/-- An Exchange ends only in DONE, which publishes a result (41_commands R90). -/
theorem PheMove.busy_falls (h : PheMove rx s t) (hs : s.eng.phase ≠ .idle) (ht : t.eng.phase = .idle) :
    s.eng.phase = .done ∧ t.res.valid = true := by
  cases h with
  | done hp | finish hp => exact ⟨hp, rfl⟩
  | opc => cases ht
  | stat => exact absurd ht (gated_phase_ne_idle _ _)
  | out => exact absurd ht (sent_phase_ne_idle hs)
  | settle => obtain ⟨-, h⟩ | ⟨-, h⟩ := settleStep_cases s <;> simp [h] at ht
  | cap => exact absurd ht (captured_phase_ne_idle hs)
  | unfinished => exact absurd ht hs
  | waitHost hp | waitSeq hp | accept _ hp | refuse _ hp | start _ hp => exact absurd hp hs

/-- A choice other than a RESET ends an Exchange only by the PHE's step in DONE. -/
theorem EventMove.busy_falls (h : EventMove s e t) (he : e ≠ .rst) (hs : s.eng.phase ≠ .idle)
    (ht : t.eng.phase = .idle) : s.pheActsIn e [.done] ∧ t.res.valid = true := by
  cases h with
  | phe rx _ hm =>
    obtain ⟨hp, hv⟩ := hm.busy_falls hs ht
    exact ⟨⟨by simp [hp], rx, rfl⟩, hv⟩
  | still | trig | offer => exact absurd ht hs
  | refuse => rw [refuse_eng] at ht; exact absurd ht hs
  | reset => exact absurd rfl he

/-- A choice other than a RESET starts an Exchange only by the PHE's step in IDLE. -/
theorem EventMove.busy_rises (h : EventMove s e t) (he : e ≠ .rst) (hs : s.eng.phase = .idle)
    (ht : t.eng.phase ≠ .idle) : s.pheActsIn e [.idle] := by
  cases h with
  | phe rx => exact ⟨by simp [hs], rx, rfl⟩
  | still | trig | offer => exact absurd hs ht
  | refuse => rw [refuse_eng] at ht; exact absurd hs ht
  | reset => exact absurd rfl he

end

/-! ### Configuration, sequencer, request slot, host reads, register writers, status outputs -/

/-- Settles O37: no move of any agent writes the parameters. -/
theorem configFixed : Obligations.ConfigFixed := by
  intro s t h
  obtain rfl | ⟨e, p, d, hm⟩ := step_move h
  · exact refuse_cfg ..
  · exact hm.cfg_eq

/-- Settles O38, move by move (`EventMove.seq_reset_of_host`). -/
theorem sequencerIdleInHost : Obligations.SequencerIdleInHost := by
  intro s t hr hs h
  obtain rfl | ⟨e, p, d, hm⟩ := step_move h
  · rw [refuse_seq, hs]
  · exact hm.seq_reset_of_host hr hs

/-- Settles O32: `offerStep` by its two conditions, the mode and the slot. -/
theorem offerStep_fills_empty_slot : Obligations.OfferStep := by
  intro u req hw
  simp only [step_withChoice hw, eventStep, Host.Outcome.next.injEq]
  refine ⟨fun hr hv => ?_, fun hr hv => ?_, fun hr => ?_⟩
  · simp [offerStep, hr, hv]
  · simp [offerStep, hr, hv]
  · simp [offerStep, hr]

theorem hostView_invalid {s : State} (hv : s.res.valid = false) (r : HostRead) : s.hostView r = none := by
  simp [State.hostView, hv]

/-- `RES.data[i]` is an element of RSP exactly below RES.count (10_state R27). -/
theorem resData_getElem? (s : State) (i : Nat) :
    s.resData[i]? = if i < s.res.count.toNat then s.eng.rsp[i]? else none := by
  simp [State.resData, List.getElem?_take]

/-- Settles O33: the views by the kind of read, the step by whether the read has a value. -/
theorem hostReads : Obligations.HostReads := by
  intro u r hw
  simp only [step_withChoice hw, eventStep, Host.Outcome.next.injEq]
  refine ⟨fun hv => hostView_invalid hv r, fun hv => ?_, fun hr => ?_, fun hr => ?_⟩
  · cases r with
    | data i => simpa [State.hostView, hv] using resData_getElem? u i
    | _ => simp [State.hostView, hv]
  · obtain ⟨-, h⟩ | ⟨h, -⟩ := readStep_cases r u
    · exact h
    · exact absurd h hr
  · obtain ⟨h, -⟩ | ⟨-, h⟩ := readStep_cases r u
    · exact absurd hr h
    · exact ⟨_, h, mem_refuse.mpr (.inr rfl), refuse_eq ..⟩

/-- Settles O36: each move of an agent writes only registers whose rows name it. -/
theorem registerWriters : Obligations.RegisterWriters := by
  intro u t e hw he hstep
  rw [step_withChoice hw] at hstep
  cases eventStep_move hstep with
  | phe rx _ hm =>
    cases hm with
    | waitHost hp | waitSeq hp | unfinished hp => simp
    | accept _ hp | refuse _ hp | start _ hp => simp [State.pheActsIn, hp]
    | opc hp | stat hp | out _ hp | cap hp | done hp | finish hp => simp [State.pheActsIn, hp]
    | settle hp => obtain ⟨-, h⟩ | ⟨-, h⟩ := settleStep_cases u <;> simp [h, State.pheActsIn, hp]
  | still | trig | refuse => simp
  | offer _ _ ho => simpa using fun _ => or_assoc.mp (.inl ho)
  | reset => exact absurd rfl he

theorem busy_iff {s : State} : s.busy = true ↔ s.eng.phase ≠ .idle := by simp [State.busy]

theorem busy_false_iff {s : State} : s.busy = false ↔ s.eng.phase = .idle := by simp [State.busy]

/-- Settles O57: acceptance by `startExchange_idle`, the changes of `busy` by what can start or end an Exchange. -/
theorem statusOutputs : Obligations.StatusOutputs := by
  refine ⟨fun s => ⟨busy_iff, by simp [State.reqReady]⟩, fun s t i hi hb h => ?_, fun u t e hw h => ?_⟩
  · rw [exec_wellFormed hi, startExchange_idle (busy_false_iff.mp hb)] at h
    cases h
    exact ⟨rfl, rfl⟩
  · rw [step_withChoice hw] at h
    have hm := eventStep_move h
    refine ⟨fun hne => ?_, fun hu ht he => ?_, ?_⟩
    · by_cases he : e = .rst
      · exact .inl he
      by_cases hu : u.eng.phase = .idle
      · have ht : t.eng.phase ≠ .idle := fun ht => hne (by simp [State.busy, hu, ht])
        obtain ⟨-, hx⟩ := hm.busy_rises he hu ht
        exact .inr ⟨by simp [hu], hx⟩
      · have ht : t.eng.phase = .idle := by
          by_contra ht
          exact hne (by rw [busy_iff.mpr ht, busy_iff.mpr hu])
        obtain ⟨⟨hp, hx⟩, -⟩ := hm.busy_falls he hu ht
        exact .inr ⟨List.mem_cons_of_mem _ hp, hx⟩
    · exact (hm.busy_falls he (busy_iff.mp hu) (busy_false_iff.mp ht)).2
    · rintro rfl
      cases h
      exact ⟨rfl, rfl⟩

/-! ### The invariants of 10_state R36 -/

/-- The invariants read only the engine, the result, the sequencer, the parameters and the observation. -/
theorem State.Inv.congr {s t : State} (h : s.Inv) (he : t.eng = s.eng) (hr : t.res = s.res) (hs : t.seq = s.seq)
    (hc : t.cfg = s.cfg) (ht : t.trace = s.trace) : t.Inv := by
  obtain ⟨eng, res, seq, slot, cfg, refusals, pending, trace, draws⟩ := t
  cases he; cases hr; cases hs; cases hc; cases ht
  exact ⟨{ h.rule with }, { h.support with }⟩

theorem State.Inv.refuse {s : State} (h : s.Inv) (r : RefusedInput) : (s.refuse r).Inv :=
  h.congr (refuse_eng ..) (refuse_res ..) (refuse_seq ..) (refuse_cfg ..) (refuse_trace ..)

theorem State.HasResetValues.seq_eq {t : State} (h : t.HasResetValues) : t.seq = State.reset.seq := by
  calc t.seq = ⟨t.seq.state, t.seq.rot, t.seq.trigPend⟩ := rfl
    _ = State.reset.seq := by rw [h.seqState, h.rot, h.trigPend]; rfl

/-- With every register at its reset value no Exchange is in progress and no result is valid. -/
theorem State.HasResetValues.inv {t : State} (h : t.HasResetValues) : t.Inv where
  rule :=
    { awaitIdle := fun _ _ => h.phase
      busyRun := fun _ hp => absurd h.phase hp
      outBody := by simp [h.phase]
      capBody := by simp [h.phase]
      settleBody := by simp [h.phase]
      published := by simp [h.valid]
      counts := by simp [h.nout, h.ncap] }
  support :=
    { hostSeq := fun _ => h.seq_eq
      runBusy := by simp [h.seqState]
      validIdle := fun _ => h.phase
      settleCmd := by simp [h.settle]
      capturing := by simp [h.phase]
      captured := by simp [h.phase]
      unacked := by simp [h.phase] }

theorem reset_hasResetValues (cfg : Config) : State.HasResetValues { State.reset with cfg := cfg } := by
  constructor <;> rfl

theorem takeReset_hasResetValues (s : State) : s.takeReset.HasResetValues := by
  constructor <;> rfl

/-- Settles O53: the reset values meet the invariants whatever the parameters. -/
theorem invAtReset : Obligations.InvAtReset :=
  ⟨(reset_hasResetValues Config.standard).inv, fun cfg => (reset_hasResetValues cfg).inv⟩

/-- What the invariants say of an engine in an Exchange, phase by phase, with the wire so far. -/
def Eng.InExchange (wire : List (Byte × Byte)) (e : Eng) : Prop :=
  match e.phase with
  | .idle   => False
  | .opc    => e.ack = false
  | .stat   => e.ack = false
  | .out    => e.ack = true ∧ e.idx < e.nout
  | .settle => e.ack = true ∧ e.cmd = .sensorRead
  | .cap    => e.ack = true ∧ e.idx < e.ncap.setWidth 9 ∧
      e.rsp.toList.take e.idx.toNat = lastInbound wire e.idx.toNat
  | .done   => e.ack = true → e.rsp.toList.take e.ncap.toNat = lastInbound wire e.ncap.toNat

theorem inExchange_cap {wire : List (Byte × Byte)} {e : Eng} (hp : e.phase = .cap) (hx : e.InExchange wire) :
    e.ack = true ∧ e.idx < e.ncap.setWidth 9 ∧ e.rsp.toList.take e.idx.toNat = lastInbound wire e.idx.toNat := by
  simpa only [Eng.InExchange, hp] using hx

/-- `InExchange` is all that the invariants say of the phase while the engine is busy. -/
theorem State.Inv.inExchange {s : State} (h : s.Inv) (hb : s.eng.phase ≠ .idle) :
    s.eng.InExchange s.trace.wire := by
  cases hp : s.eng.phase <;> simp only [Eng.InExchange, hp]
  case idle => exact hb hp
  case opc => exact h.support.unacked (.inl hp)
  case stat => exact h.support.unacked (.inr hp)
  case out => exact h.rule.outBody hp
  case settle => exact h.rule.settleBody hp
  case cap =>
    obtain ⟨hack, hidx⟩ := h.rule.capBody hp
    exact ⟨hack, hidx, h.support.capturing hp⟩
  case done => exact h.support.captured hp

/-- The invariants of a busy engine, from `InExchange` and what does not depend on the phase. -/
theorem inv_of_inExchange {t : State} (hx : t.eng.InExchange t.trace.wire)
    (hrun : t.cfg.reqSource = .seq → t.seq.state = .run) (hhost : t.cfg.reqSource = .host → t.seq = State.reset.seq)
    (hres : t.res.valid = false) (hset : t.eng.settle = true → t.eng.cmd = .sensorRead)
    (hnout : t.eng.nout.toNat ≤ 256) : t.Inv := by
  have hb : t.eng.phase ≠ .idle := fun hp => by simp [Eng.InExchange, hp] at hx
  exact
    { rule :=
        { awaitIdle := fun hr ha => by simp [hrun hr] at ha
          busyRun := fun hr _ => hrun hr
          outBody := fun hp => by simpa [Eng.InExchange, hp] using hx
          capBody := fun hp => by
            obtain ⟨hack, hidx, -⟩ := inExchange_cap hp hx
            exact ⟨hack, hidx⟩
          settleBody := fun hp => by simpa [Eng.InExchange, hp] using hx
          published := fun hp => absurd hp hb
          counts := ⟨by omega, hnout⟩ }
      support :=
        { hostSeq := hhost
          runBusy := fun _ _ => hb
          validIdle := by simp [hres]
          settleCmd := hset
          capturing := fun hp => by
            obtain ⟨-, -, hbuf⟩ := inExchange_cap hp hx
            exact hbuf
          captured := fun hp => by
            simp only [Eng.InExchange, hp] at hx
            exact hx
          unacked := fun hp => by obtain hp | hp := hp <;> simpa [Eng.InExchange, hp] using hx } }

/-- A busy engine's step keeps the invariants if it keeps the command, its settle flag and its number of argument
bytes, and meets what the invariants say of the phase it enters. -/
theorem State.Inv.of_engine_step {s : State} (h : s.Inv) (hb : s.eng.phase ≠ .idle) {e : Eng} {tr : Trace}
    (hx : e.InExchange tr.wire) (hc : e.cmd = s.eng.cmd) (hs : e.settle = s.eng.settle) (hn : e.nout = s.eng.nout) :
    State.Inv { s with eng := e, trace := tr } := by
  refine inv_of_inExchange hx (fun hr => h.rule.busyRun hr hb) h.support.hostSeq ?_ ?_ ?_
  · exact Bool.eq_false_iff.mpr fun hv => hb (h.support.validIdle hv)
  · show e.settle = true → e.cmd = .sensorRead
    rw [hc, hs]
    exact h.support.settleCmd
  · show e.nout.toNat ≤ 256
    rw [hn]
    exact h.rule.counts.2

/-! ### The phases that follow STAT, OUT, SETTLE and CAP -/

@[simp] theorem lastInbound_zero (wire : List (Byte × Byte)) : lastInbound wire 0 = [] := by
  simp [lastInbound]

/-- One more transceive adds its inbound byte to the last ones. -/
theorem lastInbound_append (wire : List (Byte × Byte)) (tx rx : Byte) (n : Nat) :
    lastInbound (wire ++ [(tx, rx)]) (n + 1) = lastInbound wire n ++ [rx] := by
  have hd : (wire ++ [(tx, rx)]).length - (n + 1) = wire.length - n := by simp
  rw [lastInbound, hd, List.drop_append_of_le_length (by omega)]
  simp [lastInbound]

/-- CAP enters with index 0, so that nothing is captured yet. -/
theorem inExchange_cap_start {wire : List (Byte × Byte)} {e : Eng} (hack : e.ack = true) (hn : 0 < e.ncap) :
    Eng.InExchange wire { e with idx := 0, phase := .cap } := by
  refine ⟨hack, ?_, by simp⟩
  have : 0 < e.ncap.toNat := hn
  simp [BitVec.lt_def]
  omega

/-- DONE without captured bytes. -/
theorem inExchange_done_empty {wire : List (Byte × Byte)} {e : Eng} (hn : ¬ 0 < e.ncap) :
    Eng.InExchange wire { e with phase := .done } := by
  have hz : e.ncap.toNat = 0 := Nat.eq_zero_of_not_pos hn
  intro _
  simp [hz]

theorem inExchange_afterArgs {wire : List (Byte × Byte)} {e : Eng} (hack : e.ack = true)
    (hset : e.settle = true → e.cmd = .sensorRead) : e.afterArgs.InExchange wire := by
  obtain ⟨hs, h⟩ | ⟨-, hn, h⟩ | ⟨-, hn, h⟩ := afterArgs_cases e <;> rw [h]
  · exact ⟨hack, hset hs⟩
  · exact inExchange_cap_start hack hn
  · exact inExchange_done_empty hn

theorem inExchange_gated {wire : List (Byte × Byte)} {e : Eng} (g : Bool)
    (hset : e.settle = true → e.cmd = .sensorRead) : (e.gated g).InExchange wire := by
  obtain ⟨-, hn, h⟩ | ⟨-, -, h⟩ | ⟨-, h⟩ := gated_cases g e <;> rw [h]
  · exact ⟨rfl, hn⟩
  · exact inExchange_afterArgs rfl hset
  · exact fun hack => absurd hack Bool.false_ne_true

/-- OUT sends one more byte: below the last one the index stays below the number of bytes. -/
theorem inExchange_sent {wire : List (Byte × Byte)} {e : Eng} (hp : e.phase = .out) (hack : e.ack = true)
    (hi : e.idx < e.nout) (hn : e.nout.toNat ≤ 256) (hset : e.settle = true → e.cmd = .sensorRead) :
    e.sent.InExchange wire := by
  obtain ⟨-, h⟩ | ⟨hne, h⟩ := sent_cases e <;> rw [h]
  · exact inExchange_afterArgs hack hset
  · have hlt : e.idx + 1 < e.nout := by bv_omega
    simpa [Eng.InExchange, hp] using ⟨hack, hlt⟩

/-- The byte CAP stores at the index follows those stored before. -/
theorem take_setIfInBounds_succ {n i : Nat} (buf : Vector Byte n) (b : Byte) (hi : i < n) :
    (buf.setIfInBounds i b).toList.take (i + 1) = buf.toList.take i ++ [b] := by
  simp [Vector.toList_setIfInBounds, List.take_set, List.take_add_one, List.set_eq_of_length_le, hi]

/-- CAP captures one more byte: the buffer holds the last inbound bytes up to the new index. -/
theorem inExchange_captured {wire : List (Byte × Byte)} {e : Eng} (tx rx : Byte) (hp : e.phase = .cap)
    (hi : e.idx.toNat < 255) (hx : e.InExchange wire) : (e.captured rx).InExchange (wire ++ [(tx, rx)]) := by
  obtain ⟨hack, hlt, hbuf⟩ := inExchange_cap hp hx
  have hidx : (e.idx + 1).toNat = e.idx.toNat + 1 := by bv_omega
  have hcap : (e.rsp.setIfInBounds e.idx.toNat rx).toList.take (e.idx + 1).toNat =
      lastInbound (wire ++ [(tx, rx)]) (e.idx + 1).toNat := by
    rw [hidx, take_setIfInBounds_succ _ _ hi, lastInbound_append, hbuf]
  obtain ⟨hlast, h⟩ | ⟨hne, h⟩ := captured_cases rx e <;> rw [h]
  · have hn : (e.idx + 1).toNat = e.ncap.toNat := by rw [hlast, BitVec.toNat_setWidth_of_le (by decide)]
    exact fun _ => hn ▸ hcap
  · have hlt' : e.idx + 1 < e.ncap.setWidth 9 := by bv_omega
    simp only [Eng.InExchange, hp]
    exact ⟨hack, hlt', hcap⟩

/-! ### Acceptance and publication -/

theorem argBytes_length_le {i : Instr} (hi : i.wellFormed = true) : (argBytes i).length ≤ 256 := by
  cases i with
  | ledControl pin value => exact (Laws.RequestFits.ledControl pin value hi).2
  | sensorRead channel => exact (Laws.RequestFits.sensorRead channel hi).2
  | ledRead pin => exact (Laws.RequestFits.ledRead pin hi).2
  | print text => exact (Laws.RequestFits.print text hi).2
  | idRead => exact (Laws.RequestFits.idRead hi).2

/-- The settle column of the catalog (10_state R23, R33). -/
theorem settleOf_true {cfg : Config} {c : Cmd} (h : cfg.settleOf c = true) : c = .sensorRead := by
  cases c <;> simp [Config.settleOf] at h ⊢

/-- An acceptance meets the invariants where the sequencer is as its mode says. -/
theorem accept_inv {s : State} {i : Instr} (hi : i.wellFormed = true)
    (hrun : s.cfg.reqSource = .seq → s.seq.state = .run)
    (hhost : s.cfg.reqSource = .host → s.seq = State.reset.seq) : (s.accept i.cmd (argBytes i)).Inv := by
  refine inv_of_inExchange rfl hrun hhost rfl (settleOf_true (cfg := s.cfg)) ?_
  show (BitVec.ofNat 9 (argBytes i).length).toNat ≤ 256
  rw [BitVec.toNat_ofNat]
  exact (Nat.mod_le _ _).trans (argBytes_length_le hi)

/-- DONE publishes what the Exchange captured; the sequencer may move to AWAIT in the same step. -/
theorem doneStep_inv {s : State} (h : s.Inv) (hp : s.eng.phase = .done) {q : Sequencer}
    (hq : s.cfg.reqSource = .seq → q.state = .await) (hhost : s.cfg.reqSource = .host → q = State.reset.seq) :
    State.Inv { doneStep s with seq := q } := by
  have hcap : State.capturedLast { doneStep s with seq := q } s.eng.result.count.toNat := by
    show s.eng.rsp.toList.take _ = lastInbound s.trace.wire _
    cases hack : s.eng.ack
    · simp [Eng.result, hack]
    · simpa [Eng.result, hack, State.capturedLast] using h.support.captured hp hack
  exact
    { rule :=
        { awaitIdle := fun _ _ => rfl
          busyRun := fun _ hb => absurd rfl hb
          outBody := nofun
          capBody := nofun
          settleBody := nofun
          published := fun _ _ => ⟨by omega, hcap, by simp [State.resData]⟩
          counts := h.rule.counts }
      support :=
        { hostSeq := hhost
          runBusy := fun hr ha => by simp [hq hr] at ha
          validIdle := fun _ => rfl
          settleCmd := h.support.settleCmd
          capturing := nofun
          captured := nofun
          unacked := nofun } }

/-! ### The steps -/

/-- Every move of the PHE preserves the invariants. -/
theorem PheMove.inv {rx : Byte} {s t : State} (h : PheMove rx s t) (hs : s.Inv) : t.Inv := by
  cases h with
  | waitHost | waitSeq | unfinished => exact hs
  | accept i _ hr _ hd => exact accept_inv (decodeRequest_wellFormed hd) (by simp [hr]) hs.support.hostSeq
  | refuse => exact hs.refuse _
  | start i _ hr _ _ hd => exact accept_inv (decodeRequest_wellFormed hd) (fun _ => rfl) (by simp [hr])
  | opc hp =>
    have hack : s.eng.ack = false := hs.support.unacked (.inl hp)
    exact hs.of_engine_step (by simp [hp]) hack rfl rfl rfl
  | stat hp =>
    exact hs.of_engine_step (by simp [hp]) (inExchange_gated _ hs.support.settleCmd) (gated_cmd ..)
      (gated_settle ..) (gated_nout ..)
  | out _ hp =>
    obtain ⟨hack, hi⟩ := hs.rule.outBody hp
    exact hs.of_engine_step (by simp [hp])
      (inExchange_sent hp hack hi hs.rule.counts.2 hs.support.settleCmd) (sent_cmd _) (sent_settle _) (sent_nout _)
  | settle hp =>
    obtain ⟨hack, -⟩ := hs.rule.settleBody hp
    obtain ⟨hn, h⟩ | ⟨hn, h⟩ := settleStep_cases s <;> rw [h]
    · exact hs.of_engine_step (by simp [hp]) (inExchange_cap_start hack hn) rfl rfl rfl
    · exact hs.of_engine_step (by simp [hp]) (inExchange_done_empty hn) rfl rfl rfl
  | cap hp hi =>
    have hb : s.eng.phase ≠ .idle := by simp [hp]
    exact hs.of_engine_step hb (inExchange_captured _ rx hp hi (hs.inExchange hb)) (captured_cmd ..)
      (captured_settle ..) (captured_nout ..)
  | done hp hr => exact doneStep_inv hs hp (by simp [hr]) hs.support.hostSeq
  | finish hp hr => exact doneStep_inv hs hp (fun _ => rfl) (by simp [hr])

/-- TRIG touches the latch, of which the invariants say nothing in SEQ mode. -/
theorem State.Inv.trigger {s : State} (h : s.Inv) (hr : s.cfg.reqSource = .seq) (b : Bool) :
    State.Inv { s with seq := { s.seq with trigPend := b } } :=
  ⟨{ h.rule with }, { h.support with hostSeq := by simp [hr] }⟩

/-- Every move of every agent preserves the invariants. -/
theorem EventMove.inv {e : Event} {s t : State} (h : EventMove s e t) (hs : s.Inv) : t.Inv := by
  cases h with
  | phe _ _ hm => exact hm.inv hs
  | still => exact hs
  | trig hr => exact hs.trigger hr true
  | offer => exact hs.congr rfl rfl rfl rfl rfl
  | refuse => exact hs.refuse _
  | reset => exact (takeReset_hasResetValues s).inv

/-- Settles O54: the move of the agent that acts preserves the invariants, and they do not read the choices left. -/
theorem invPreserved : Obligations.InvPreserved := by
  intro s t hs h
  obtain rfl | ⟨e, p, d, hm⟩ := step_move h
  · exact hs.refuse _
  · exact hm.inv (hs.congr rfl rfl rfl rfl rfl)

/-! ### States that differ only in bytes that no rule looks at (10_state R24, R25, R28) -/

/-- A move of the PHE is what its step answers. -/
theorem PheMove.pheStep_eq {rx : Byte} {s t : State} (h : PheMove rx s t) : pheStep rx s = .next t := by
  cases h with
  | waitHost hp hr hv => simp [pheStep, hp, hr, hostIdleStep, hv]
  | waitSeq hp hr hw => simp only [pheStep, hp, hr, seqIdleStep, if_neg hw]
  | accept i hp hr hv hd =>
    simp [pheStep, hp, hr, hostIdleStep, hv, acceptRequest, hd, exec_wellFormed (decodeRequest_wellFormed hd),
      startExchange_idle hp]
  | refuse e hp hr hv hd => simp [pheStep, hp, hr, hostIdleStep, hv, acceptRequest, hd]
  | start i hp hr ha ht hd =>
    have hidle : s.presentRotation.eng.phase = .idle := hp
    simp [pheStep, hp, hr, seqIdleStep, ha, ht, acceptRequest, hd, exec_wellFormed (decodeRequest_wellFormed hd),
      startExchange_idle hidle]
  | opc hp => exact pheStep_opc hp rx
  | stat hp => exact pheStep_stat hp rx
  | out tx hp htx => rw [pheStep_out hp, outStep_eq htx]
  | settle hp => simp [pheStep, hp]
  | cap hp hi => rw [pheStep_cap hp, capStep_eq hi]
  | done hp hr => simp [pheStep, hp, hr]
  | finish hp hr hs => simp [pheStep, hp, hr, seqDoneStep, hs]
  | unfinished hp hr hs => simp [pheStep, hp, hr, seqDoneStep, hs]

/-- `e` with other bytes in the buffers. -/
def Eng.withStale (arg : Vector Byte 256) (rsp : Vector Byte 255) (e : Eng) : Eng := { e with arg := arg, rsp := rsp }

/-- `s` with other bytes in the buffers and another request word in the slot. -/
def State.withStale (arg : Vector Byte 256) (rsp : Vector Byte 255) (req : Request) (s : State) : State :=
  { s with eng := s.eng.withStale arg rsp, slot := { s.slot with req := req } }

theorem SameInUse.refl (s : State) : SameInUse s s :=
  ⟨rfl, fun _ _ => rfl, fun _ _ => rfl, rfl, rfl, rfl, fun _ => rfl, rfl, rfl, rfl, rfl, rfl⟩

theorem SameInUse.exists_withStale {s t : State} (h : SameInUse s t) :
    ∃ arg rsp req, t = s.withStale arg rsp req := by
  refine ⟨t.eng.arg, t.eng.rsp, t.slot.req, ?_⟩
  obtain ⟨eng, res, seq, ⟨valid, req⟩, cfg, refusals, pending, trace, draws⟩ := t
  obtain ⟨heng, -, -, rfl, rfl, rfl, -, rfl, rfl, rfl, rfl, rfl⟩ := h
  rw [State.withStale, Eng.withStale, ← heng]

section
variable {s s' : State} {arg : Vector Byte 256} {rsp : Vector Byte 255} {req : Request}

theorem argInUse_of_busy (hb : s.eng.phase ≠ .idle) : s.argInUse = s.eng.nout.toNat := if_neg hb

/-- The arguments in use stay the same while an Exchange goes on, and none are at its end. -/
theorem argInUse_le (hb : s.eng.phase ≠ .idle) (hn : s'.eng.nout = s.eng.nout) : s'.argInUse ≤ s.argInUse := by
  rw [argInUse_of_busy hb, State.argInUse, hn]
  split <;> omega

/-- Where a step in an Exchange keeps the buffers and the slot, and puts no further byte of RSP in use, what differed
before the step is all that differs after it. -/
theorem SameInUse.of_kept (h : SameInUse s (s.withStale arg rsp req)) (s' : State) (hb : s.eng.phase ≠ .idle)
    (harg : s'.eng.arg = s.eng.arg) (hrsp : s'.eng.rsp = s.eng.rsp) (hslot : s'.slot = s.slot)
    (hnout : s'.eng.nout = s.eng.nout) (huse : s'.rspInUse ≤ s.rspInUse) :
    SameInUse s' (s'.withStale arg rsp req) where
  eng := rfl
  arg k hk := harg ▸ h.arg k (hk.trans_le (argInUse_le hb hnout))
  rsp k hk := hrsp ▸ h.rsp k (hk.trans_le huse)
  res := rfl
  seq := rfl
  valid := rfl
  req hv := hslot ▸ h.req (hslot ▸ hv)
  cfg := rfl
  refusals := rfl
  pending := rfl
  trace := rfl
  draws := rfl

/-- AFTER_ARGS enters SETTLE, the first CAP, or DONE with nothing to capture: no byte of RSP is in use. -/
theorem rspInUse_of_afterArgs {e : Eng} (h : s.eng = e.afterArgs) : s.rspInUse = 0 := by
  obtain ⟨-, ha⟩ | ⟨-, -, ha⟩ | ⟨-, hn, ha⟩ := afterArgs_cases e
  · simp [State.rspInUse, h, ha]
  · simp [State.rspInUse, h, ha]
  · have hz : e.ncap = 0 := by bv_omega
    simp [State.rspInUse, h, ha, hz]

theorem rspInUse_of_gated {g : Bool} {e : Eng} (h : s.eng = e.gated g) : s.rspInUse = 0 := by
  obtain ⟨-, -, hg⟩ | ⟨-, -, hg⟩ | ⟨-, hg⟩ := gated_cases g e
  · simp [State.rspInUse, h, hg]
  · exact rspInUse_of_afterArgs (h.trans hg)
  · simp [State.rspInUse, h, hg]

theorem rspInUse_of_sent {e : Eng} (hp : e.phase = .out) (h : s.eng = e.sent) : s.rspInUse = 0 := by
  obtain ⟨-, hs⟩ | ⟨-, hs⟩ := sent_cases e
  · exact rspInUse_of_afterArgs (h.trans hs)
  · simp [State.rspInUse, h, hs, hp]

theorem rspInUse_of_settleStep (s : State) : (settleStep s).rspInUse = 0 := by
  obtain ⟨-, h⟩ | ⟨hn, h⟩ := settleStep_cases s
  · simp [State.rspInUse, h]
  · have hz : s.eng.ncap = 0 := by bv_omega
    simp [State.rspInUse, h, hz]

/-- A result that DONE publishes shows the bytes that were in use in DONE. -/
theorem rspInUse_of_result (hp : s.eng.phase = .done) (hp' : s'.eng.phase = .idle) (hr : s'.res = s.eng.result) :
    s'.rspInUse = s.rspInUse := by
  cases ha : s.eng.ack <;> simp [State.rspInUse, hp, hp', hr, Eng.result, ha]

/-! ### What the operations of a step make of the bytes of a buffer -/

theorem take_toList_congr {n m : Nat} {v w : Vector Byte n} (h : ∀ k < m, v[k]? = w[k]?) :
    v.toList.take m = w.toList.take m := by
  refine List.ext_getElem? fun k => ?_
  by_cases hk : k < m
  · simpa [hk] using h k hk
  · simp [hk]

/-- What a write puts into a buffer does not depend on what the buffer held. -/
theorem writeBytes_agree {n k : Nat} (v w : Vector Byte n) {bytes : List Byte} (hk : k < bytes.length) :
    (writeBytes v bytes)[k]? = (writeBytes w bytes)[k]? := by
  by_cases h : k < n
  · have hb : bytes[k]? = some bytes[k] := List.getElem?_eq_getElem hk
    rw [writeBytes_inside h hb, writeBytes_inside h hb]
  · rw [Vector.getElem?_eq_none (by omega), Vector.getElem?_eq_none (by omega)]

/-! ### The steps commute with the other bytes -/

theorem afterArgs_withStale (e : Eng) : (e.withStale arg rsp).afterArgs = e.afterArgs.withStale arg rsp := by
  simp only [Eng.afterArgs, apply_ite (Eng.withStale arg rsp)]
  rfl

theorem gated_withStale (g : Bool) (e : Eng) : (e.withStale arg rsp).gated g = (e.gated g).withStale arg rsp := by
  simp only [Eng.gated, apply_ite (Eng.withStale arg rsp), ← afterArgs_withStale]
  rfl

theorem sent_withStale (e : Eng) : (e.withStale arg rsp).sent = e.sent.withStale arg rsp := by
  simp only [Eng.sent, apply_ite (Eng.withStale arg rsp), ← afterArgs_withStale]
  rfl

theorem captured_withStale (rx : Byte) (e : Eng) : (e.withStale arg rsp).captured rx =
    (e.captured rx).withStale arg (rsp.setIfInBounds e.idx.toNat rx) := by
  simp only [Eng.captured, apply_ite (Eng.withStale arg (rsp.setIfInBounds e.idx.toNat rx))]
  rfl

theorem settleStep_withStale (s : State) :
    settleStep (s.withStale arg rsp req) = (settleStep s).withStale arg rsp req := by
  simp only [settleStep, State.withStale, apply_ite (Eng.withStale arg rsp)]
  rfl

theorem statStep_withStale (rx : Byte) (s : State) :
    statStep rx (s.withStale arg rsp req) = (statStep rx s).withStale arg rsp req := by
  show { s.withStale arg rsp req with
      eng := (s.eng.withStale arg rsp).gated (gate rx), trace := (statStep rx s).trace } = _
  rw [gated_withStale]
  rfl

/-- DONE publishes bytes in use only, so that the result is the same. -/
theorem doneStep_withStale (h : SameInUse s (s.withStale arg rsp req)) (hp : s.eng.phase = .done) :
    doneStep (s.withStale arg rsp req) = (doneStep s).withStale arg rsp req := by
  have hdata : rsp.toList.take s.eng.result.count.toNat = s.eng.rsp.toList.take s.eng.result.count.toNat :=
    take_toList_congr fun k hk => h.rsp k <| by
      have huse : (doneStep s).rspInUse = s.rspInUse := rspInUse_of_result hp rfl rfl
      exact huse ▸ hk
  show { (doneStep s).withStale arg rsp req with
    trace := { s.trace with results := s.trace.results ++
      [Result.mk s.eng.cmd s.eng.ack (rsp.toList.take s.eng.result.count.toNat)] } } = _
  rw [hdata]
  rfl

/-- Acceptance writes every argument byte that comes into use, puts none of RSP in use and empties the slot. -/
theorem SameInUse.accept {t : State} (h : SameInUse s t) (c : Cmd) (body : List Byte) :
    SameInUse (s.accept c body) (t.accept c body) := by
  obtain ⟨arg, rsp, req, rfl⟩ := h.exists_withStale
  exact
    { eng := rfl
      arg := fun k hk => writeBytes_agree _ _ <| hk.trans_le <|
        (BitVec.toNat_ofNat ..).trans_le (Nat.mod_le _ _)
      rsp := fun k hk => absurd hk (Nat.not_lt_zero k)
      res := rfl, seq := rfl, valid := rfl, req := nofun, cfg := rfl, refusals := rfl, pending := rfl, trace := rfl
      draws := rfl }

/-- A request that fills the slot of both. -/
theorem SameInUse.fillSlot {t : State} (h : SameInUse s t) (slot : Slot) :
    SameInUse { s with slot := slot } { t with slot := slot } :=
  { h with valid := rfl, req := fun _ => rfl }

theorem SameInUse.refuse {t : State} (h : SameInUse s t) (r : RefusedInput) :
    SameInUse (s.refuse r) (t.refuse r) := by
  unfold State.refuse
  rw [h.refusals]
  split
  · exact h
  · exact { h with refusals := rfl }

theorem SameInUse.presentRotation {t : State} (h : SameInUse s t) :
    SameInUse s.presentRotation t.presentRotation := by
  obtain ⟨arg, rsp, req, rfl⟩ := h.exists_withStale
  exact { h.fillSlot ⟨true, s.rotationRequest⟩ with seq := rfl }

/-- CAP puts the same byte at the index of both buffers, which is the one more that comes into use. -/
theorem SameInUse.capture (h : SameInUse s (s.withStale arg rsp req)) (tx rx : Byte) (hp : s.eng.phase = .cap)
    (hi : s.eng.idx.toNat < 255) :
    SameInUse { s.transceive tx rx with eng := s.eng.captured rx }
      { (s.withStale arg rsp req).transceive tx rx with eng := (s.eng.withStale arg rsp).captured rx } := by
  have huse : State.rspInUse { s.transceive tx rx with eng := s.eng.captured rx } ≤ s.eng.idx.toNat + 1 := by
    obtain ⟨hl, hc⟩ | ⟨-, hc⟩ := captured_cases rx s.eng
    · have hn : s.eng.ncap.toNat ≤ s.eng.idx.toNat + 1 := by bv_omega
      simp only [State.rspInUse, hc]
      split <;> omega
    · simp only [State.rspInUse, hc, hp]
      bv_omega
  rw [captured_withStale]
  exact
    { eng := rfl
      arg := fun k hk => captured_arg rx s.eng ▸
        h.arg k (hk.trans_le (argInUse_le (by simp [hp]) (captured_nout ..)))
      rsp := fun k hk => by
        have hold : k < s.eng.idx.toNat → rsp[k]? = s.eng.rsp[k]? := fun hlt =>
          h.rsp k (by simpa [State.rspInUse, hp] using hlt)
        show (rsp.setIfInBounds s.eng.idx.toNat rx)[k]? = (s.eng.captured rx).rsp[k]?
        rw [captured_rsp]
        by_cases hk' : k = s.eng.idx.toNat
        · subst hk'
          simp [hi]
        · rw [Vector.getElem?_setIfInBounds_ne (Ne.symm hk'), Vector.getElem?_setIfInBounds_ne (Ne.symm hk')]
          exact hold (by omega)
      res := rfl, seq := rfl, valid := rfl, req := h.req, cfg := rfl, refusals := rfl, pending := rfl, trace := rfl
      draws := rfl }

/-- Two states that differ only so take the same move of the PHE. -/
theorem PheMove.sameInUse {rx : Byte} {t : State} (hm : PheMove rx s s') (hs : s.Inv) (h : SameInUse s t) :
    ∃ t', PheMove rx t t' ∧ SameInUse s' t' := by
  obtain ⟨arg, rsp, req, rfl⟩ := h.exists_withStale
  cases hm with
  | waitHost hp hr hv => exact ⟨_, .waitHost hp hr hv, h⟩
  | waitSeq hp hr hw => exact ⟨_, .waitSeq hp hr hw, h⟩
  | unfinished hp hr hu => exact ⟨_, .unfinished hp hr hu, h⟩
  | accept i hp hr hv hd => exact ⟨_, .accept i hp hr hv ((h.req hv).symm ▸ hd), h.accept _ _⟩
  | refuse e hp hr hv hd => exact ⟨_, .refuse e hp hr hv ((h.req hv).symm ▸ hd), h.refuse _⟩
  | start i hp hr ha ht hd hc => exact ⟨_, .start i hp hr ha ht hd hc, h.presentRotation.accept _ _⟩
  | opc hp => exact ⟨_, .opc hp, h.of_kept (opcStep rx s) (by simp [hp]) rfl rfl rfl rfl (Nat.zero_le _)⟩
  | stat hp =>
    refine ⟨_, .stat hp, ?_⟩
    rw [statStep_withStale]
    exact h.of_kept _ (by simp [hp]) (gated_arg ..) (gated_rsp ..) rfl (gated_nout ..)
      ((rspInUse_of_gated rfl).trans_le (Nat.zero_le _))
  | out tx hp htx =>
    obtain ⟨-, hi⟩ := hs.rule.outBody hp
    have hb : s.eng.phase ≠ .idle := by simp [hp]
    have hsame : arg[s.eng.idx.toNat]? = some tx := (h.arg _ (argInUse_of_busy hb ▸ hi)).trans htx
    refine ⟨_, .out tx hp hsame, ?_⟩
    show SameInUse _ { (s.withStale arg rsp req).transceive tx rx with eng := (s.eng.withStale arg rsp).sent }
    rw [sent_withStale]
    exact h.of_kept { s.transceive tx rx with eng := s.eng.sent } hb (sent_arg _) (sent_rsp _) rfl (sent_nout _)
      ((rspInUse_of_sent hp rfl).trans_le (Nat.zero_le _))
  | settle hp =>
    refine ⟨_, .settle hp, ?_⟩
    rw [settleStep_withStale]
    have huse := (rspInUse_of_settleStep s).trans_le (Nat.zero_le s.rspInUse)
    obtain ⟨-, he⟩ | ⟨-, he⟩ := settleStep_cases s <;> rw [he] at huse ⊢ <;>
      exact h.of_kept _ (by simp [hp]) rfl rfl rfl rfl huse
  | cap hp hi => exact ⟨_, .cap hp hi, h.capture _ rx hp hi⟩
  | done hp hr =>
    refine ⟨_, .done hp hr, ?_⟩
    rw [doneStep_withStale h hp]
    exact h.of_kept (doneStep s) (by simp [hp]) rfl rfl rfl rfl (rspInUse_of_result hp rfl rfl).le
  | finish hp hr hu =>
    have hsame : finishStep (s.withStale arg rsp req) = (finishStep s).withStale arg rsp req := by
      rw [finishStep, doneStep_withStale h hp]
      rfl
    refine ⟨_, .finish hp hr hu, ?_⟩
    rw [hsame]
    exact h.of_kept (finishStep s) (by simp [hp]) rfl rfl rfl rfl (rspInUse_of_result hp rfl rfl).le

end

/-- A host read gives bytes in use only, so that its value is the same (10_state R25, R27). -/
theorem SameInUse.hostView_eq {s t : State} (h : SameInUse s t) (hs : s.Inv) (r : HostRead) :
    t.hostView r = s.hostView r := by
  cases hv : s.res.valid with
  | false => rw [hostView_invalid hv, hostView_invalid (h.res ▸ hv)]
  | true =>
    have huse : s.rspInUse = s.res.count.toNat := by simp [State.rspInUse, hs.support.validIdle hv, hv]
    have hdata : t.resData = s.resData := by
      rw [State.resData, h.res]
      exact take_toList_congr fun k hk => h.rsp k (huse ▸ hk)
    simp only [State.hostView, h.res, hdata]

theorem SameInUse.read {s t : State} (h : SameInUse s t) (hs : s.Inv) (r : HostRead) :
    SameInUse (readStep r s) (readStep r t) := by
  unfold readStep
  rw [h.hostView_eq hs r]
  cases s.hostView r with
  | none => exact h.refuse _
  | some _ => exact h

theorem SameInUse.offer {s t : State} (h : SameInUse s t) (req : Request) :
    SameInUse (offerStep req s) (offerStep req t) := by
  have ht : t.cfg.reqSource = s.cfg.reqSource := by rw [h.cfg]
  cases hr : s.cfg.reqSource with
  | seq => simpa only [offerStep, ht, hr] using h
  | host =>
    cases hv : s.slot.valid with
    | true => simpa [offerStep, ht, hr, h.valid, hv] using h
    | false => simpa [offerStep, ht, hr, h.valid, hv] using h.fillSlot ⟨true, req⟩

theorem SameInUse.line {s t : State} (h : SameInUse s t) (l : ReqLine) : SameInUse (lineStep l s) (lineStep l t) := by
  unfold lineStep
  rw [h.cfg]
  cases s.cfg.reqSource with
  | seq => exact h
  | host =>
    cases assemble l with
    | none => exact h.refuse _
    | some i => exact h.offer _

theorem SameInUse.trigger {s t : State} (h : SameInUse s t) : SameInUse (trigStep s) (trigStep t) := by
  have ht : t.cfg.reqSource = s.cfg.reqSource := by rw [h.cfg]
  cases hr : s.cfg.reqSource with
  | seq =>
    simp only [trigStep, ht, hr]
    exact { h with seq := by rw [h.seq] }
  | host => simpa only [trigStep, ht, hr] using h

/-- A RESET writes what differed, with the same free values in both (70_reset_and_hazards R132). -/
theorem SameInUse.reset {s t : State} (h : SameInUse s t) : SameInUse s.takeReset t.takeReset := by
  obtain ⟨arg, rsp, req, rfl⟩ := h.exists_withStale
  exact SameInUse.refl s.takeReset

/-- Whichever agent acts, two states that differ only in bytes not in use step alike. -/
theorem SameInUse.eventStep {s t s' : State} (h : SameInUse s t) (hs : s.Inv) {e : Event}
    (he : eventStep e s = .next s') : ∃ t', eventStep e t = .next t' ∧ SameInUse s' t' := by
  cases e with
  | phe rx =>
    obtain ⟨t', hm, ht⟩ := (pheStep_move he).sameInUse hs h
    exact ⟨t', hm.pheStep_eq, ht⟩
  | trig => cases he; exact ⟨_, rfl, h.trigger⟩
  | offer req => cases he; exact ⟨_, rfl, h.offer req⟩
  | line l => cases he; exact ⟨_, rfl, h.line l⟩
  | read r => cases he; exact ⟨_, rfl, h.read hs r⟩
  | rst => cases he; exact ⟨_, rfl, h.reset⟩
  | quiet => cases he; exact ⟨_, rfl, h⟩

theorem step_wellFormed {s : State} (hw : s.cfg.wellFormed = true) :
    step s = eventStep s.nextChoice.1 s.nextChoice.2 :=
  if_pos hw

theorem step_illFormed {s : State} (hw : s.cfg.wellFormed = false) :
    step s = .next (s.refuse .illFormedInstance) :=
  if_neg (by simp [hw])

/-- The next choice is the same in both states. -/
theorem SameInUse.nextChoice {s t : State} (h : SameInUse s t) :
    t.nextChoice.1 = s.nextChoice.1 ∧ SameInUse s.nextChoice.2 t.nextChoice.2 := by
  cases hp : s.pending with
  | nil =>
    simp only [State.nextChoice, h.pending, hp, h.draws]
    exact ⟨trivial, { h with pending := rfl, draws := rfl }⟩
  | cons e rest =>
    simp only [State.nextChoice, h.pending, hp]
    exact ⟨trivial, { h with pending := rfl }⟩

/-- Settles O56: both states have the same next choice, and every agent's step keeps what they agree on. -/
theorem staleBytesUnread : Obligations.StaleBytesUnread := by
  intro s t s' hs h hstep
  obtain ⟨hchoice, hrest⟩ := h.nextChoice
  have hs' : s.nextChoice.2.Inv := by
    rw [nextChoice_rest]
    exact hs.congr rfl rfl rfl rfl rfl
  cases hw : s.cfg.wellFormed with
  | true =>
    rw [step_wellFormed hw] at hstep
    rw [step_wellFormed (h.cfg ▸ hw), hchoice]
    exact hrest.eventStep hs' hstep
  | false =>
    rw [step_illFormed hw] at hstep
    rw [step_illFormed (h.cfg ▸ hw)]
    cases hstep
    exact ⟨_, rfl, h.refuse _⟩

end Sys2Proof.Machine
end

section
/-! The statements of 20_memory: where the PHE's step stops (R41), and that no rule reads the settle delay or the bit
order of the link (R43). -/
namespace Sys2Proof.Machine

/-! ### Where the PHE's step stops -/

/-- The buffer access that the fault names is out of range: OUT reads outside ARG, CAP writes outside RSP. -/
def State.AccessOutOfRange (s : State) : Fault → Prop
  | .argIndex => s.eng.phase = .out ∧ 256 ≤ s.eng.idx.toNat
  | .rspIndex => s.eng.phase = .cap ∧ 255 ≤ s.eng.idx.toNat

section
variable {s t : State} {f : Fault}

theorem pheStep_of_accessOutOfRange (h : s.AccessOutOfRange f) (rx : Byte) : pheStep rx s = .fault f := by
  cases f with
  | argIndex =>
    obtain ⟨hp, hi⟩ := h
    rw [pheStep_out hp]
    simp [outStep, Vector.getElem?_eq_none hi]
  | rspIndex =>
    obtain ⟨hp, hi⟩ := h
    rw [pheStep_cap hp]
    exact if_neg (by omega)

/-- The PHE's step stops with the fault of an access out of range, or answers a next state. -/
theorem pheStep_stops_or_next (rx : Byte) (s : State) :
    (∃ f, s.AccessOutOfRange f ∧ pheStep rx s = .fault f) ∨ ∃ t, pheStep rx s = .next t := by
  by_cases h : ∃ f, s.AccessOutOfRange f
  · obtain ⟨f, hf⟩ := h
    exact .inl ⟨f, hf, pheStep_of_accessOutOfRange hf rx⟩
  · refine .inr (pheStep_total rx s (fun hp => ?_) (fun hp => ?_)) <;> by_contra hi
    · exact h ⟨.argIndex, hp, by omega⟩
    · exact h ⟨.rspIndex, hp, by omega⟩

theorem pheStep_fault_iff {rx : Byte} : pheStep rx s = .fault f ↔ s.AccessOutOfRange f := by
  refine ⟨fun h => ?_, fun h => pheStep_of_accessOutOfRange h rx⟩
  obtain ⟨g, hg, hs⟩ | ⟨t, hs⟩ := pheStep_stops_or_next rx s <;> rw [hs] at h <;> cases h
  exact hg

theorem pheStep_ne_refused (rx : Byte) (s : State) (r : Refusal) : pheStep rx s ≠ .refused r := by
  obtain ⟨f, -, hs⟩ | ⟨t, hs⟩ := pheStep_stops_or_next rx s <;> simp [hs]

end

/-- Settles O27: `pheStep_fault_iff` at each of the two faults, and no refusal. -/
theorem bufferBounds : Obligations.BufferBounds := by
  intro u rx hw
  rw [step_withChoice hw]
  exact ⟨pheStep_fault_iff, pheStep_fault_iff, pheStep_ne_refused rx u⟩

/-! ### Another settle delay and bit order -/

section
variable {e : Event} {s t : State} {f : Fault} {delay : Nat} {order : BitOrder}

theorem retimed_refuse (r : RefusedInput) (s : State) :
    (s.refuse r).retimed delay order = (s.retimed delay order).refuse r :=
  apply_ite (State.retimed delay order) ..

/-- The instances differ in nothing that decides a move of the PHE or what it writes. -/
theorem PheMove.retimed {rx : Byte} (h : PheMove rx s t) :
    PheMove rx (s.retimed delay order) (t.retimed delay order) := by
  cases h with
  | waitHost hp hr hv => exact .waitHost hp hr hv
  | waitSeq hp hr hw => exact .waitSeq hp hr hw
  | accept i hp hr hv hd => exact .accept i hp hr hv hd
  | refuse e hp hr hv hd => rw [retimed_refuse]; exact .refuse e hp hr hv hd
  | start i hp hr ha ht hd hc => exact .start i hp hr ha ht hd hc
  | opc hp => exact .opc hp
  | stat hp => exact .stat hp
  | out tx hp htx => exact .out tx hp htx
  | settle hp => exact .settle hp
  | cap hp hi => exact .cap hp hi
  | done hp hr => exact .done hp hr
  | finish hp hr hs => exact .finish hp hr hs
  | unfinished hp hr hs => exact .unfinished hp hr hs

theorem trigStep_retimed (s : State) : trigStep (s.retimed delay order) = (trigStep s).retimed delay order := by
  cases hr : s.cfg.reqSource <;> simp [trigStep, State.retimed, hr]

theorem offerStep_retimed (req : Request) (s : State) :
    offerStep req (s.retimed delay order) = (offerStep req s).retimed delay order := by
  cases hr : s.cfg.reqSource <;> cases hv : s.slot.valid <;> simp [offerStep, State.retimed, hr, hv]

theorem lineStep_retimed (l : ReqLine) (s : State) :
    lineStep l (s.retimed delay order) = (lineStep l s).retimed delay order := by
  have hcfg : (s.retimed delay order).cfg.reqSource = s.cfg.reqSource := rfl
  simp only [lineStep, hcfg]
  cases s.cfg.reqSource with
  | seq => rfl
  | host =>
    cases assemble l with
    | none => exact (retimed_refuse ..).symm
    | some i => exact offerStep_retimed ..

theorem readStep_retimed (r : HostRead) (s : State) :
    readStep r (s.retimed delay order) = (readStep r s).retimed delay order := by
  have hview : (s.retimed delay order).hostView r = s.hostView r := rfl
  simp only [readStep, hview]
  cases s.hostView r with
  | none => exact (retimed_refuse ..).symm
  | some _ => rfl

/-- Whichever agent acts, it goes on alike in both instances. -/
theorem eventStep_next_retimed (h : eventStep e s = .next t) :
    eventStep e (s.retimed delay order) = .next (t.retimed delay order) := by
  cases e with
  | phe rx => exact (pheStep_move h).retimed.pheStep_eq
  | trig => cases h; exact congrArg _ (trigStep_retimed s)
  | offer req => cases h; exact congrArg _ (offerStep_retimed req s)
  | line l => cases h; exact congrArg _ (lineStep_retimed l s)
  | read r => cases h; exact congrArg _ (readStep_retimed r s)
  | rst | quiet => cases h; rfl

/-- Only the PHE faults, on an access out of range, which is out of range in both instances. -/
theorem eventStep_fault_retimed (h : eventStep e s = .fault f) : eventStep e (s.retimed delay order) = .fault f := by
  cases e with
  | phe rx =>
    have hs : s.AccessOutOfRange f := pheStep_fault_iff.mp h
    have hs' : (s.retimed delay order).AccessOutOfRange f := by cases f <;> exact hs
    exact pheStep_fault_iff.mpr hs'
  | _ => cases h

theorem nextChoice_retimed (s : State) :
    (s.retimed delay order).nextChoice = (s.nextChoice.1, s.nextChoice.2.retimed delay order) := by
  cases hp : s.pending <;> simp [State.nextChoice, State.retimed, hp]

/-- A well-formed instance stays one, and makes the same choice. -/
theorem step_retimed_wellFormed (hw : s.cfg.wellFormed = true) :
    step (s.retimed delay order) = eventStep s.nextChoice.1 (s.nextChoice.2.retimed delay order) := by
  have hw' : (s.retimed delay order).cfg.wellFormed = true := hw
  rw [step_wellFormed hw', nextChoice_retimed]

/-- An ill-formed instance stays one, and records the same refusal. -/
theorem step_retimed_illFormed (hw : s.cfg.wellFormed = false) :
    step (s.retimed delay order) = .next ((s.refuse .illFormedInstance).retimed delay order) := by
  have hw' : (s.retimed delay order).cfg.wellFormed = false := hw
  rw [step_illFormed hw', retimed_refuse]

end

/-- Settles O40: in a well-formed instance by the step of the agent that acts, in any other by its refusal. -/
theorem timingUnread : Obligations.TimingUnread := by
  intro s delay order
  cases hw : s.cfg.wellFormed with
  | true =>
    rw [step_wellFormed hw, step_retimed_wellFormed hw]
    exact ⟨fun _ => eventStep_next_retimed, fun _ => eventStep_fault_retimed⟩
  | false =>
    rw [step_illFormed hw, step_retimed_illFormed hw]
    exact ⟨fun t h => by cases h; rfl, nofun⟩

end Sys2Proof.Machine
end

section
/-! The statements of 30_encoding: the request word decoded and encoded (R54 to R57, R65, R66, R70), the opcodes and
their decoder (R58 to R60), the gate (R61), request lines (R72, R73), and an Exchange on the wire (R62, R63, R67). -/
namespace Sys2Proof

/-! ### The request word -/

/-- The instruction of command `c` with the operands that the fields of `r` give (30_encoding R65). -/
def Request.instr (r : Request) : Cmd → Instr
  | .ledControl => .ledControl r.aField r.vField
  | .sensorRead => .sensorRead r.aField
  | .ledRead    => .ledRead r.aField
  | .print      => .print r.textBytes
  | .idRead     => .idRead

theorem decodeRequest_of_cmdField {r : Request} {c : Cmd} (h : r.cmdField = c.id) :
    decodeRequest r = .ok (r.instr c) := by
  cases c <;> simp [decodeRequest, h, ofId_id, Request.instr]

@[simp] theorem decodeRequest_ofFields (tlen : Byte) (v : BitVec 1) (a : Byte) (c : Cmd) (text : Text) :
    decodeRequest (.ofFields tlen v a c.id text) = .ok ((Request.ofFields tlen v a c.id text).instr c) :=
  decodeRequest_of_cmdField (cmdField_ofFields ..)

theorem decodeRequest_invalid {r : Request} (h : 4 < r.cmdField.toNat) :
    decodeRequest r = .error (.invalidCommand r.cmdField) := by
  simp [decodeRequest, ofId_none.mpr h]

/-- An id names a command or is 5, 6 or 7 (30_encoding R57). -/
theorem exists_id_or_invalid (id : BitVec 3) : (∃ c : Cmd, id = c.id) ∨ 4 < id.toNat := by
  cases h : Cmd.ofId id with
  | none => exact .inr (ofId_none.mp h)
  | some c =>
    refine .inl ⟨c, ?_⟩
    revert id; cases c <;> decide

/-- A request is made of its fields (30_encoding R55). -/
theorem ofFields_fields (r : Request) : Request.ofFields r.tlenField r.vField r.aField r.cmdField r.text = r := by
  obtain ⟨word, text⟩ := r
  refine congrArg (Request.mk · text) (BitVec.eq_of_getLsbD_eq fun k hk => ?_)
  refine (word_getLsbD _ _ _ _ text k).trans ?_
  simp only [Request.tlenField, Request.vField, Request.aField, Request.cmdField, BitVec.getLsbD_extractLsb']
  split_ifs with hcmd ha hv
  · simp [hcmd]
  · simp [ha, show 3 + (k - 3) = k by omega]
  · simp [show k = 11 by omega]
  · simp [show k - 3 - 8 - 1 < 8 by omega, show 12 + (k - 3 - 8 - 1) = k by omega]

theorem padText_take {text : List Byte} {n : Nat} (hn : n ≤ text.length) (hmax : n ≤ 255) :
    (padText text).toList.take n = text.take n := by
  refine List.ext_getElem (by simp [hn, hmax]) fun k hk hk' => ?_
  have hlt : k < text.length := by simp at hk'; omega
  simp [padText, hlt]

/-! ### The opcodes -/

theorem opcodes_nodup_iff {cfg : Config} : cfg.opcodes.Nodup ↔ ∀ c d : Cmd, cfg.opcode c = cfg.opcode d → c = d := by
  have hall : ∀ c : Cmd, c ∈ [Cmd.ledControl, .sensorRead, .ledRead, .print, .idRead] := by
    intro c; cases c <;> decide
  have hmap := List.nodup_map_iff_inj_on (f := cfg.opcode)
    (show [Cmd.ledControl, .sensorRead, .ledRead, .print, .idRead].Nodup by decide)
  exact hmap.trans ⟨fun h c d => h c (hall c) d (hall d), fun h c _ d _ => h c d⟩

theorem mem_opcodes_iff {cfg : Config} {b : Byte} : b ∈ cfg.opcodes ↔ ∃ c, cfg.opcode c = b := by
  constructor
  · intro h
    simp only [Config.opcodes, List.mem_cons, List.not_mem_nil, or_false] at h
    obtain rfl | rfl | rfl | rfl | rfl := h <;> exact ⟨_, rfl⟩
  · rintro ⟨c, rfl⟩
    cases c <;> simp [Config.opcodes]

theorem Config.wellFormed_iff {cfg : Config} : cfg.wellFormed = true ↔
    (∀ c d : Cmd, cfg.opcode c = cfg.opcode d → c = d) ∧ ∀ c : Cmd, cfg.opcode c ≠ 0xF5 ∧ cfg.opcode c ≠ 0xFF := by
  simp [Config.wellFormed, opcodes_nodup_iff, mem_opcodes_iff, ackSentinel, fillerSentinel, and_assoc, forall_and]

/-- Settles O3: `Config.wellFormed_iff`, and the default instance evaluated. -/
theorem opcodeConstraint : Obligations.OpcodeConstraint :=
  ⟨fun _ => Config.wellFormed_iff, rfl⟩

/-- What DECODE names is the command of that opcode, in every instance. -/
theorem opcode_of_decodeOpcode {cfg : Config} {b : Byte} {c : Cmd} (h : cfg.decodeOpcode b = some c) :
    b = cfg.opcode c := by
  unfold Config.decodeOpcode at h
  split_ifs at h <;> cases h <;> assumption

/-- DECODE names some command for every opcode, in every instance. -/
theorem decodeOpcode_opcode_isSome (cfg : Config) (c : Cmd) : (cfg.decodeOpcode (cfg.opcode c)).isSome = true := by
  cases c <;> simp only [Config.decodeOpcode, Config.opcode] <;> split_ifs <;> rfl

/-- In a well-formed instance DECODE is the inverse of OPCODE (30_encoding R59). -/
theorem decodeOpcode_eq_some_iff {cfg : Config} (hw : cfg.wellFormed = true) {b : Byte} {c : Cmd} :
    cfg.decodeOpcode b = some c ↔ b = cfg.opcode c := by
  refine ⟨opcode_of_decodeOpcode, ?_⟩
  rintro rfl
  obtain ⟨d, hd⟩ := Option.isSome_iff_exists.mp (decodeOpcode_opcode_isSome cfg c)
  rw [hd, (Config.wellFormed_iff.mp hw).1 c d (opcode_of_decodeOpcode hd)]

theorem decodeOpcode_eq_none_iff {cfg : Config} (hw : cfg.wellFormed = true) {b : Byte} :
    cfg.decodeOpcode b = none ↔ ∀ c, cfg.opcode c ≠ b := by
  rw [Option.eq_none_iff_forall_ne_some]
  exact forall_congr' fun c => (decodeOpcode_eq_some_iff hw).not.trans ne_comm

/-- The lookup port says whether DECODE names a command, and which (30_encoding R59). -/
theorem decoderPort_of_some {cfg : Config} {b : Byte} {c : Cmd} (h : cfg.decodeOpcode b = some c) :
    cfg.decoderPort b = (true, c.id) := by
  simp [Config.decoderPort, h]

theorem decoderPort_of_none {cfg : Config} {b : Byte} (h : cfg.decodeOpcode b = none) :
    cfg.decoderPort b = (false, 0) := by
  simp [Config.decoderPort, h]

/-- Settles O2: DECODE inverts OPCODE, no sentinel is an opcode, and the port follows DECODE. -/
theorem opcodeDecoder : Obligations.OpcodeDecoder := by
  intro cfg hw
  obtain ⟨-, hsentinel⟩ := Config.wellFormed_iff.mp hw
  refine ⟨fun _ _ => decodeOpcode_eq_some_iff hw, (decodeOpcode_eq_none_iff hw).mpr fun c => (hsentinel c).1,
    (decodeOpcode_eq_none_iff hw).mpr fun c => (hsentinel c).2, fun b => ⟨?hit, ?cmd, ?miss⟩⟩
  case cmd => exact fun c hb => by rw [decoderPort_of_some ((decodeOpcode_eq_some_iff hw).mpr hb)]
  all_goals cases hd : cfg.decodeOpcode b
  case hit.none =>
    simpa [decoderPort_of_none hd, eq_comm] using (decodeOpcode_eq_none_iff hw).mp hd
  case hit.some c => simpa [decoderPort_of_some hd] using ⟨c, opcode_of_decodeOpcode hd⟩
  case miss.none => simp [decoderPort_of_none hd]
  case miss.some c => simp [decoderPort_of_some hd]

end Sys2Proof

namespace Sys2Proof.Machine

/-! ### The gate, and the request word decoded and encoded -/

/-- Settles O1: the gate compares with the ACK sentinel, which is 0xF5. -/
theorem gateExact : Obligations.GateExact :=
  fun _ => ⟨gate_true, gate_false⟩

/-- Settles O5: each word evaluated, with the text of the PRINT by `padText_take`. -/
theorem decodeWords : Obligations.DecodeWords := by
  have hprint := padText_take (text := [0x48, 0x69, 0x21]) (n := 2) (by decide) (by decide)
  exact ⟨rfl, rfl, rfl, congrArg (Except.ok <| Instr.print ·) hprint, rfl, rfl⟩

/-- Settles O6: the decoder on a named id, a request rebuilt from its fields, the decoder on any other id. -/
theorem decodeFields : Obligations.DecodeFields := by
  refine ⟨fun tlen v a c text => ?_, ofFields_fields, fun _ => decodeRequest_invalid⟩
  rw [decodeRequest_ofFields]
  cases c <;> simp [Request.instr]

/-- Encoding and decoding agree, operand by operand. -/
theorem decodeRequest_encodeRequest {i : Instr} (hi : i.wellFormed = true) :
    decodeRequest (encodeRequest i) = .ok i := by
  cases i with
  | print text =>
    have ht : text.length ≤ 255 := of_decide_eq_true hi
    have hmod : text.length % 256 = text.length := Nat.mod_eq_of_lt (by omega)
    simp [encodeRequest, Request.instr, hmod, padText_take le_rfl ht]
  | _ => simp [encodeRequest, Request.instr]

/-- Settles O7: `decodeRequest_encodeRequest`. -/
theorem decodeEncode : Obligations.DecodeEncode :=
  fun _ => decodeRequest_encodeRequest

/-! ### Acceptance of a request word -/

/-- Settles O12: the decoder rejects the id, and the refusal changes only its record. -/
theorem invalidIdRefused : Obligations.InvalidIdRefused := by
  intro u rx hw hr hp hv hid
  refine ⟨u.refuse .invalidCommand, ?_, refuse_eq .., mem_refuse.mpr (.inr rfl)⟩
  rw [step_withChoice hw]
  exact (PheMove.refuse _ hp hr hv (decodeRequest_invalid hid)).pheStep_eq

/-- The decoder reads no field that the command does not use (30_encoding R66). -/
theorem Request.agreesInUse.decodeRequest_eq {r r' : Request} (h : Request.agreesInUse r r') :
    decodeRequest r' = decodeRequest r := by
  obtain ⟨hid, hled, hread, hprint⟩ := h
  obtain ⟨c, hc⟩ | hbad := exists_id_or_invalid r.cmdField
  · rw [decodeRequest_of_cmdField hc, decodeRequest_of_cmdField (hid.trans hc)]
    cases c with
    | ledControl => obtain ⟨ha, hv⟩ := hled hc; simp [Request.instr, ha, hv]
    | sensorRead => simp [Request.instr, hread (.inl hc)]
    | ledRead => simp [Request.instr, hread (.inr hc)]
    | print => simp [Request.instr, (hprint hc).2]
    | idRead => rfl
  · rw [decodeRequest_invalid hbad, decodeRequest_invalid (hid ▸ hbad), hid]

/-- `s` with another request word in the slot. -/
def State.withReq (req : Request) (s : State) : State := { s with slot := { s.slot with req := req } }

theorem refuse_withReq (req : Request) (q : RefusedInput) (s : State) :
    (s.refuse q).withReq req = (s.withReq req).refuse q :=
  apply_ite (State.withReq req) ..

/-- What the PHE does with an offered request depends on the word through the decoder alone. -/
theorem PheMove.withReq {rx : Byte} {s t : State} {req : Request} (h : PheMove rx s t)
    (hr : s.cfg.reqSource = .host) (hp : s.eng.phase = .idle) (hv : s.slot.valid = true)
    (hd : decodeRequest req = decodeRequest s.slot.req) : PheMove rx (s.withReq req) (t.withReq req) := by
  cases h with
  | accept i _ _ _ hi => exact .accept i hp hr hv (hd.trans hi)
  | refuse e _ _ _ he => rw [refuse_withReq]; exact .refuse e hp hr hv (hd.trans he)
  | waitHost _ _ hn => simp [hv] at hn
  | waitSeq _ hq | start _ _ hq => simp [hr] at hq
  | opc hq | stat hq | out _ hq | settle hq | cap hq | done hq | finish hq | unfinished hq => simp [hp] at hq

/-- Settles O8: both requests decode alike, and the PHE's move depends on the decoding alone. -/
theorem ignoredFields : Obligations.IgnoredFields := by
  intro u t r r' rx hagree hw hr hp h
  have hstep (req : Request) : step (State.withChoice (.phe rx) { u with slot := ⟨true, req⟩ }) =
      pheStep rx { u with slot := ⟨true, req⟩ } := step_withChoice (u := { u with slot := ⟨true, req⟩ }) hw _
  rw [hstep] at h ⊢
  exact ((pheStep_move h).withReq hr hp rfl hagree.decodeRequest_eq).pheStep_eq

/-! ### Request lines -/

/-- A text stands for its bytes exactly where every element is one (30_encoding R72). -/
theorem mapM_byteOperand (elems : List Nat) : elems.mapM byteOperand =
    if ∀ n ∈ elems, n < 256 then some (elems.map (BitVec.ofNat 8)) else none := by
  induction elems with
  | nil => rfl
  | cons n ns ih =>
    rw [List.mapM_cons, ih]
    simp only [List.forall_mem_cons, byteOperand]
    by_cases hn : n < 256
    · by_cases hns : ∀ m ∈ ns, m < 256
      · rw [if_pos hn, if_pos hns, if_pos ⟨hn, hns⟩]; rfl
      · rw [if_pos hn, if_neg hns, if_neg fun h => hns h.2]; rfl
    · rw [if_neg hn, if_neg fun h : n < 256 ∧ ∀ m ∈ ns, m < 256 => hn h.1]; rfl

theorem map_byteOperand (f : Byte → Instr) (n : Nat) :
    (byteOperand n).map f = if n < 256 then some (f (BitVec.ofNat 8 n)) else none :=
  apply_ite (Option.map f) ..

theorem assemble_ledControl (pin value : Nat) : assemble ⟨.ledControl, [.num pin, .num value]⟩ =
    if pin < 256 ∧ value < 2 then some (.ledControl (BitVec.ofNat 8 pin) (BitVec.ofNat 1 value)) else none := by
  show (if value < 2 then (byteOperand pin).map (Instr.ledControl · (BitVec.ofNat 1 value)) else none) = _
  rw [map_byteOperand, ← ite_and]
  simp only [and_comm]

theorem assemble_sensorRead (channel : Nat) : assemble ⟨.sensorRead, [.num channel]⟩ =
    if channel < 256 then some (.sensorRead (BitVec.ofNat 8 channel)) else none :=
  map_byteOperand ..

theorem assemble_ledRead (pin : Nat) : assemble ⟨.ledRead, [.num pin]⟩ =
    if pin < 256 then some (.ledRead (BitVec.ofNat 8 pin)) else none :=
  map_byteOperand ..

theorem assemble_print (elems : List Nat) : assemble ⟨.print, [.text elems]⟩ =
    if elems.length ≤ 255 ∧ ∀ n ∈ elems, n < 256 then some (.print (elems.map (BitVec.ofNat 8))) else none := by
  show (if elems.length ≤ 255 then (elems.mapM byteOperand).map Instr.print else none) = _
  rw [mapM_byteOperand, apply_ite (Option.map Instr.print), ite_and]
  rfl

/-- A pseudo-request written out as LED_CONTROL has one operand more (30_encoding R73). -/
theorem operandsFit_of_expandLine {l : ReqLine} (h : operandsFit (expandLine l)) : operandsFit l := by
  obtain ⟨head, operands⟩ := l
  cases head with
  | ledOn | ledOff =>
    obtain ⟨pin, value, hops⟩ := h
    exact ⟨pin, List.append_inj_left' (t₂ := [_]) hops rfl⟩
  | _ => exact h

/-- A line that stands for an instruction has the operands its first word takes. -/
theorem operandsFit_of_assemble {l : ReqLine} {i : Instr} (h : assemble l = some i) : operandsFit l := by
  refine operandsFit_of_expandLine ?_
  unfold assemble at h
  split at h
  case h_1 pin value hhead hops => simpa only [operandsFit, hhead] using ⟨pin, value, hops⟩
  case h_2 channel hhead hops => simpa only [operandsFit, hhead] using ⟨channel, hops⟩
  case h_3 pin hhead hops => simpa only [operandsFit, hhead] using ⟨pin, hops⟩
  case h_4 elems hhead hops => simpa only [operandsFit, hhead] using ⟨elems, hops⟩
  case h_5 hhead hops => simpa only [operandsFit, hhead] using hops
  case h_6 => cases h

/-- Every instruction a line stands for is well formed. -/
theorem assemble_wellFormed {l : ReqLine} {i : Instr} (h : assemble l = some i) : i.wellFormed = true := by
  have hfit := operandsFit_of_assemble h
  obtain ⟨head, operands⟩ := l
  have hled (pin value : Nat) (h : assemble ⟨.ledControl, [.num pin, .num value]⟩ = some i) : i.wellFormed = true := by
    rw [assemble_ledControl] at h
    split_ifs at h; cases h; rfl
  cases head with
  | ledControl => obtain ⟨pin, value, rfl⟩ := hfit; exact hled pin value h
  | ledOn => obtain ⟨pin, rfl⟩ := hfit; exact hled pin 1 h
  | ledOff => obtain ⟨pin, rfl⟩ := hfit; exact hled pin 0 h
  | sensorRead =>
    obtain ⟨channel, rfl⟩ := hfit
    rw [assemble_sensorRead] at h
    split_ifs at h; cases h; rfl
  | ledRead =>
    obtain ⟨pin, rfl⟩ := hfit
    rw [assemble_ledRead] at h
    split_ifs at h; cases h; rfl
  | print =>
    obtain ⟨elems, rfl⟩ := hfit
    rw [assemble_print] at h
    split_ifs at h with hin
    cases h
    simpa [Instr.wellFormed, printMax] using hin.1
  | idRead => obtain rfl := hfit; cases h; rfl

/-- Settles O34: each command's line by its own equation, any other by the operands its first word takes. -/
theorem requestLines : Obligations.RequestLines := by
  refine ⟨assemble_ledControl, assemble_sensorRead, assemble_ledRead, fun elems hin hlen => ?fits,
    fun elems hlen => ?long, fun elems hout => ?range, rfl, fun _ => ⟨rfl, rfl⟩, fun l hfit => ?operands,
    fun _ _ => assemble_wellFormed⟩
  case fits => rw [assemble_print, if_pos ⟨hlen, hin⟩]
  case long => rw [assemble_print, if_neg fun h => by omega]
  case range =>
    obtain ⟨n, hn, hbig⟩ := hout
    rw [assemble_print, if_neg fun h => absurd (h.2 n hn) (by omega)]
  case operands => exact Option.eq_none_iff_forall_ne_some.mpr fun i h => hfit (operandsFit_of_assemble h)

/-- Settles O35: a line that stands for none is refused; any other offers its instruction's encoding, which decodes to
it (`decodeRequest_encodeRequest`). -/
theorem requestLineStep : Obligations.RequestLineStep := by
  intro u l hw hr
  rw [step_withChoice hw]
  refine ⟨fun hl => ?_, fun i hl hv => ?_⟩
  · exact ⟨u.refuse .requestLine, by simp [eventStep, lineStep, hr, hl], mem_refuse.mpr (.inr rfl), refuse_eq ..⟩
  · refine ⟨encodeRequest i, decodeRequest_encodeRequest (assemble_wellFormed hl), ?_⟩
    simp [eventStep, lineStep, offerStep, hr, hl, hv]

/-! ### An Exchange on the wire -/

/-- The inbound bytes for which EXCH is defined, and what it gives: all the bytes of the body after an ACK status, the
status alone after any other (41_commands R101). -/
inductive Exchanged (cfg : Config) (i : Instr) : List Byte → ExchangeResult → Prop where
  | acknowledged (first : Byte) (body : List Byte) (hlen : body.length = (argBytes i).length + captures cfg i) :
      Exchanged cfg i (first :: ackSentinel :: body)
        { tx   := cfg.opcode i.cmd :: fillerSentinel :: (argBytes i ++ List.replicate (captures cfg i) fillerSentinel)
          ack  := true
          data := body.drop (argBytes i).length }
  | rejected (first status : Byte) (hs : status ≠ ackSentinel) :
      Exchanged cfg i [first, status] { tx := [cfg.opcode i.cmd, fillerSentinel], ack := false, data := [] }

section
variable {cfg : Config} {i : Instr} {rx : List Byte} {r : ExchangeResult}

theorem Exchanged.exch_eq (h : Exchanged cfg i rx r) : exch cfg i rx = some r := by
  cases h with
  | acknowledged first body hlen => simp [exch, gate_true.mpr rfl, hlen]
  | rejected first status hs => simp [exch, gate_false.mpr hs]

theorem exchanged_of_exch (h : exch cfg i rx = some r) : Exchanged cfg i rx r := by
  unfold exch at h
  split at h
  case h_2 => cases h
  case h_1 first status body =>
    split_ifs at h with hg hlen
    · obtain rfl := gate_true.mp hg
      cases h; exact .acknowledged first body hlen
    · cases body with
      | nil => cases h; exact .rejected first status (gate_false.mp (by simpa using hg))
      | cons => cases h

@[simp] theorem argBytes_print (text : List Byte) : argBytes (.print text) = BitVec.ofNat 8 text.length :: text := rfl

@[simp] theorem argBytes_idRead : argBytes .idRead = [] := rfl

@[simp] theorem captures_print (cfg : Config) (text : List Byte) : captures cfg (.print text) = 0 := rfl

@[simp] theorem captures_idRead (cfg : Config) : captures cfg .idRead = cfg.idLen.toNat := rfl

/-- The transceives of an Exchange: two for opcode and status, then the body where it was Acknowledged (30_encoding
R62, R63, R67). -/
theorem transceiveCount_eq (cfg : Config) (i : Instr) (ack : Bool) :
    transceiveCount cfg i ack = 2 + if ack then (argBytes i).length + captures cfg i else 0 := by
  cases ack with
  | false => rfl
  | true =>
    cases i with
    | print text => simp [transceiveCount]; omega
    | idRead => simp [transceiveCount]
    | ledControl | sensorRead | ledRead => rfl

/-- As many inbound bytes as the status byte decides make EXCH defined. -/
theorem exists_exchanged
    (h : rx.length = transceiveCount cfg i (decide (rx[1]? = some ackSentinel))) : ∃ r, Exchanged cfg i rx r := by
  rw [transceiveCount_eq] at h
  match rx with
  | [] | [_] => simp at h
  | first :: status :: body =>
    by_cases hs : status = ackSentinel
    · subst hs
      have hlen : body.length = (argBytes i).length + captures cfg i := by simp at h; omega
      exact ⟨_, .acknowledged first body hlen⟩
    · obtain rfl : body = [] := by simpa [hs] using h
      exact ⟨_, .rejected first status hs⟩

/-- What the bytes of an Exchange say of its outcome and counts (30_encoding R67, 41_commands R96). -/
theorem Exchanged.counts (h : Exchanged cfg i rx r) :
    r.tx.length = transceiveCount cfg i r.ack ∧ rx.length = r.tx.length ∧
    r.tx.take 2 = [cfg.opcode i.cmd, fillerSentinel] ∧ (r.ack = true ↔ rx[1]? = some ackSentinel) ∧
    r.data.length = (if r.ack then (cfg.ncapOf i.cmd).toNat else 0) := by
  rw [transceiveCount_eq]
  cases h with
  | acknowledged first body hlen => simp [hlen, captures]; omega
  | rejected first status hs => simpa using hs

end

/-- Settles O47: `Exchanged.counts` where EXCH is defined, `exists_exchanged` for where it is. -/
theorem transceiveCounts : Obligations.TransceiveCounts := by
  refine fun cfg i rx => ⟨⟨?_, fun h => ?_⟩, fun r h => (exchanged_of_exch h).counts⟩
  · rintro ⟨r, h⟩
    obtain ⟨hcount, hlen, -, hack, -⟩ := (exchanged_of_exch h).counts
    have hdec : decide (rx[1]? = some ackSentinel) = r.ack := by simp [← hack]
    exact (hlen.trans hcount).trans (congrArg _ hdec.symm)
  · obtain ⟨r, hr⟩ := exists_exchanged h
    exact ⟨r, hr.exch_eq⟩

/-- The observer reads the instruction and the captured bytes back from the body of an Acknowledged Exchange, and finds
its end (30_encoding R63, R65). -/
theorem decodeBody_body {cfg : Config} {i : Instr} {body : List Byte} (hi : i.wellFormed = true)
    (hlen : body.length = (argBytes i).length + captures cfg i) (rest : List (Byte × Byte)) :
    decodeBody cfg i.cmd
        ((argBytes i ++ List.replicate (captures cfg i) fillerSentinel).zip body ++ rest) =
      .ok (i, body.drop (argBytes i).length, rest) := by
  cases i with
  | ledControl pin value =>
    obtain ⟨_, _, rfl⟩ := List.length_eq_two.mp hlen
    obtain rfl | rfl := BitVec.eq_zero_or_eq_one value
    · rfl
    · rfl
  | sensorRead | ledRead =>
    obtain ⟨_, _, rfl⟩ := List.length_eq_two.mp hlen
    rfl
  | print text =>
    have hmod : text.length % 256 = text.length := Nat.mod_eq_of_lt (Nat.lt_succ_of_le (of_decide_eq_true hi))
    obtain ⟨b, bs, rfl⟩ : ∃ b bs, body = b :: bs := List.exists_cons_of_length_pos (by simp [hlen])
    have hbs : bs.length = text.length := by simpa using hlen
    have hread : (text.zip bs).map (·.1) = text := List.map_fst_zip hbs.ge
    simp [Instr.cmd, decodeBody, hmod, hbs, hread]
  | idRead =>
    have hbody : body.length = cfg.idLen.toNat := by simpa using hlen
    have hfill (tx rx : Byte) (h : (tx, rx) ∈ (List.replicate cfg.idLen.toNat fillerSentinel).zip body) :
        tx = fillerSentinel := List.eq_of_mem_replicate (List.of_mem_zip h).1
    have hread : ((List.replicate cfg.idLen.toNat fillerSentinel).zip body).map (·.2) = body :=
      List.map_snd_zip (by simp [hbody])
    simpa [Instr.cmd, decodeBody, hbody, hread] using hfill

/-- Settles O52: DECODE names the command, the gate the outcome, and `decodeBody_body` reads the body. -/
theorem observerReads : Obligations.ObserverReads := by
  intro cfg i rx r rest hw hi h
  have hopc : cfg.decodeOpcode (cfg.opcode i.cmd) = some i.cmd := (decodeOpcode_eq_some_iff hw).mpr rfl
  cases exchanged_of_exch h with
  | acknowledged first body hlen =>
    simp [decodeWire, hopc, gate_true.mpr rfl, decodeBody_body hi hlen]
  | rejected first status hs =>
    simp [decodeWire, hopc, gate_false.mpr hs]

end Sys2Proof.Machine
end

section
/-! The statements of 40_handshake: acceptance with its frame (R75, R76), the steps OPC and STAT (R77, R78), AFTER_ARGS
(R80), what a rejection leads to (R81, R82), and what is held or ignored (R83, R85). -/
namespace Sys2Proof.Machine

/-! ### Acceptance -/

/-- In IDLE the meaning of a command is the writes of ACCEPT (40_handshake R75, R76). -/
theorem exec_idle {i : Instr} (hi : i.wellFormed = true) {s : State} (hp : s.eng.phase = .idle) :
    exec i s = .next (s.accept i.cmd (argBytes i)) := by
  rw [exec_wellFormed hi, startExchange_idle hp]

/-- In any other phase it is nothing (40_handshake R83). -/
theorem exec_busy {i : Instr} (hi : i.wellFormed = true) {s : State} (hp : s.eng.phase ≠ .idle) :
    exec i s = .next s := by
  rw [exec_wellFormed hi, startExchange_busy hp]

/-- The writes of ACCEPT are the catalog's row and the argument bytes, where these fit the buffer. -/
theorem acceptedAs_accept (s : State) (c : Cmd) {body : List Byte} (hb : body.length ≤ 256) :
    AcceptedAs s (s.accept c body) c (s.cfg.opcode c) body (s.cfg.settleOf c) (s.cfg.ncapOf c) where
  nout := by
    show (BitVec.ofNat 9 body.length).toNat = body.length
    rw [BitVec.toNat_ofNat, Nat.mod_eq_of_lt (by omega)]
  args k b hk := by
    obtain ⟨hlt, -⟩ := List.getElem?_eq_some_iff.mp hk
    exact writeBytes_inside (by omega) hk
  argsRest _ hk := writeBytes_above hk
  phase := rfl
  cmd := rfl
  opc := rfl
  ack := rfl
  ncap := rfl
  settle := rfl
  idx := rfl
  rsp := rfl
  res := rfl
  slot := rfl
  seq := rfl
  cfg := rfl
  refusals := rfl
  pending := rfl
  trace := rfl
  draws := rfl

/-- A well-formed command in IDLE is accepted, as its catalog row and its argument bytes say. -/
theorem exec_acceptedAs {i : Instr} (hi : i.wellFormed = true) {s : State} (hp : s.eng.phase = .idle) :
    ∃ t, exec i s = .next t ∧
      AcceptedAs s t i.cmd (s.cfg.opcode i.cmd) (argBytes i) (s.cfg.settleOf i.cmd) (s.cfg.ncapOf i.cmd) :=
  ⟨_, exec_idle hi hp, acceptedAs_accept s i.cmd (argBytes_length_le hi)⟩

/-- LED_CONTROL sends its value as 0x00 or 0x01 (30_encoding R65). -/
theorem argBytes_ledControl (pin : Byte) (value : BitVec 1) :
    argBytes (.ledControl pin value) = [pin, if value = 1 then 0x01 else 0x00] := by
  obtain rfl | rfl := BitVec.eq_zero_or_eq_one value <;> rfl

/-- Settles O17: `exec_acceptedAs` with the length byte written out; it does not wrap below 256. -/
theorem acceptPrint : Obligations.AcceptPrint := by
  intro s text hp hlen
  obtain ⟨t, hexec, hacc⟩ := exec_acceptedAs (i := .print text) (decide_eq_true hlen) hp
  have hlenByte : (BitVec.ofNat 8 text.length).toNat = text.length := by
    rw [BitVec.toNat_ofNat, Nat.mod_eq_of_lt (by omega)]
  exact ⟨t, _, hexec, hlenByte, hacc⟩

/-- Settles O14: `exec_acceptedAs` with the value byte of `argBytes_ledControl`. -/
theorem acceptLedControl : Obligations.AcceptLedControl := by
  intro s pin value hp
  rw [← argBytes_ledControl]
  exact exec_acceptedAs rfl hp

/-- Settles O15: `exec_acceptedAs` at SENSOR_READ's row. -/
theorem acceptSensorRead : Obligations.AcceptSensorRead :=
  fun _ channel hp => exec_acceptedAs (i := .sensorRead channel) rfl hp

/-- Settles O16: `exec_acceptedAs` at LED_READ's row. -/
theorem acceptLedRead : Obligations.AcceptLedRead :=
  fun _ pin hp => exec_acceptedAs (i := .ledRead pin) rfl hp

/-- Settles O19: `exec_acceptedAs` at ID_READ's row. -/
theorem acceptIdRead : Obligations.AcceptIdRead :=
  fun _ hp => exec_acceptedAs (i := .idRead) rfl hp

/-- Settles O10: the PHE's move accepts the decoded instruction, which is that instruction's meaning in IDLE. -/
theorem stepRunsRequest : Obligations.StepRunsRequest := by
  intro u i rx hw hr hp hv hd
  rw [step_withChoice hw, exec_idle (decodeRequest_wellFormed hd) hp]
  exact (PheMove.accept i hp hr hv hd).pheStep_eq

/-! ### What is held while an Exchange is in progress -/

/-- During an Exchange the PHE changes neither the slot nor the command in progress, its opcode or its arguments. -/
theorem PheMove.held {rx : Byte} {s t : State} (h : PheMove rx s t) (hb : s.eng.phase ≠ .idle) :
    t.slot = s.slot ∧ t.eng.cmd = s.eng.cmd ∧ t.eng.opc = s.eng.opc ∧ t.eng.arg = s.eng.arg := by
  cases h with
  | waitHost hp | waitSeq hp | accept _ hp | refuse _ hp | start _ hp => exact absurd hp hb
  | opc | done | finish | unfinished => exact ⟨rfl, rfl, rfl, rfl⟩
  | stat => exact ⟨rfl, gated_cmd .., gated_opc .., gated_arg ..⟩
  | out => exact ⟨rfl, sent_cmd _, sent_opc _, sent_arg _⟩
  | cap => exact ⟨rfl, captured_cmd .., captured_opc .., captured_arg ..⟩
  | settle => obtain ⟨-, h⟩ | ⟨-, h⟩ := settleStep_cases s <;> simp [h]

/-- Nor does any other agent, where the slot is full and there is no RESET. -/
theorem EventMove.held {e : Event} {s t : State} (h : EventMove s e t) (he : e ≠ .rst) (hb : s.eng.phase ≠ .idle)
    (hv : s.slot.valid = true) :
    t.slot = s.slot ∧ t.eng.cmd = s.eng.cmd ∧ t.eng.opc = s.eng.opc ∧ t.eng.arg = s.eng.arg := by
  cases h with
  | phe _ _ hm => exact hm.held hb
  | still | trig => exact ⟨rfl, rfl, rfl, rfl⟩
  | offer _ _ _ _ hn => simp [hv] at hn
  | refuse => simp
  | reset => exact absurd rfl he

/-- Settles O20: `exec_busy` for the meaning of a command, `EventMove.held` for the steps. -/
theorem heldWhileBusy : Obligations.HeldWhileBusy := by
  refine ⟨fun _ _ hi hp => exec_busy hi hp, fun u t e hw hb hv he h => ?_⟩
  rw [step_withChoice hw] at h
  exact (eventStep_move h).held he hb hv

/-! ### AFTER_ARGS -/

theorem afterArgs_settle_set {e : Eng} (hs : e.settle = true) : e.afterArgs = { e with phase := .settle } :=
  if_pos hs

theorem afterArgs_captures {e : Eng} (hs : e.settle = false) (hn : 0 < e.ncap) :
    e.afterArgs = { e with phase := .cap, idx := 0 } := by
  rw [Eng.afterArgs, if_neg (by simp [hs]), if_pos hn]

theorem afterArgs_captures_nothing {e : Eng} (hs : e.settle = false) (hn : e.ncap = 0) :
    e.afterArgs = { e with phase := .done } := by
  simp [Eng.afterArgs, hs, hn]

/-- Settles O23: AFTER_ARGS by its three cases; once accepted, each command by the settle and ncap columns of its
catalog row. -/
theorem afterArgs : Obligations.AfterArgs := by
  refine ⟨fun e => ⟨afterArgs_settle_set, afterArgs_captures, afterArgs_captures_nothing⟩,
    fun s t i hp hi h => ?_⟩
  rw [exec_idle hi hp] at h
  cases h
  cases i with
  | ledControl | sensorRead | ledRead | print => rfl
  | idRead =>
    by_cases hn : s.cfg.idLen = 0
    · rw [if_pos hn]
      exact congrArg Eng.phase (afterArgs_captures_nothing rfl hn)
    · have hpos : 0 < s.cfg.idLen := by bv_omega
      rw [if_neg hn]
      exact congrArg Eng.phase (afterArgs_captures rfl hpos)

/-! ### The steps OPC and STAT, and the gate -/

theorem step_opc {u : State} (hw : u.cfg.wellFormed = true) (hp : u.eng.phase = .opc) (rx : Byte) :
    step (u.withChoice (.phe rx)) = .next (opcStep rx u) :=
  (step_withChoice hw _).trans (pheStep_opc hp rx)

theorem step_stat {u : State} (hw : u.cfg.wellFormed = true) (hp : u.eng.phase = .stat) (rx : Byte) :
    step (u.withChoice (.phe rx)) = .next (statStep rx u) :=
  (step_withChoice hw _).trans (pheStep_stat hp rx)

/-- Acknowledged, with argument bytes to send. -/
theorem gated_true_out {e : Eng} (hn : 0 < e.nout) :
    e.gated true = { e with ack := true, idx := 0, phase := .out } :=
  if_pos hn

/-- Acknowledged, with none. -/
theorem gated_true_afterArgs {e : Eng} (hn : e.nout = 0) :
    e.gated true = Eng.afterArgs { e with ack := true, idx := 0 } := by
  simp [Eng.gated, hn]

@[simp] theorem gated_ack (g : Bool) (e : Eng) : (e.gated g).ack = g := by
  obtain ⟨rfl, -, h⟩ | ⟨rfl, -, h⟩ | ⟨rfl, h⟩ := gated_cases g e <;> simp [h]

/-- Every status byte but the ACK sentinel gives the same engine (40_handshake R82). -/
theorem statStep_eng_rejected {status : Byte} (hs : status ≠ ackSentinel) (s : State) :
    (statStep status s).eng = { s.eng with ack := false, phase := .done } := by
  rw [statStep_eng, gate_false.mpr hs]
  rfl

/-- Settles O21: `step_opc`, and `opcStep` is the step written out. -/
theorem opcStep_sends_opcode : Obligations.OpcStep :=
  fun _ rx hw hp => step_opc hw hp rx

/-- Settles O22: `step_stat`, and what the gate's answer makes of the engine. -/
theorem statStep_branches_on_gate : Obligations.StatStep := by
  intro u rx hw hp
  refine ⟨_, step_stat hw hp rx, rfl, fun hs => statStep_eng_rejected hs u, ?_, ?_⟩
  · rintro rfl hn
    exact gated_true_out hn
  · rintro rfl hn
    exact gated_true_afterArgs hn

/-- Settles O45: two rejecting status bytes give the same engine, and STAT writes no other register. -/
theorem silentPeer : Obligations.SilentPeer := by
  intro u t t' status status' hw hp h h'
  rw [step_stat hw hp] at h h'
  cases h
  cases h'
  refine ⟨fun hs hs' => ?_, fun hs => by simp [gate_true.mpr hs]⟩
  have heng : (statStep status' u).eng = (statStep status u).eng := by
    rw [statStep_eng_rejected hs, statStep_eng_rejected hs']
  refine ⟨by simp [gate_false.mpr hs], ?_⟩
  rw [← heng]
  rfl

/-! ### Two steps in a row -/

/-- A run goes on from what its first step answers. -/
theorem run_succ {s t : State} (h : step s = .next t) (k : Nat) :
    Sys2Proof.core.run (k + 1) s = Sys2Proof.core.run k t := by
  have hcore : Sys2Proof.core.step s = .next t := h
  simp only [Host.Core.run, hcore]

/-- Settles O44: the drained byte of OPC goes to the observation alone, and the status decides by itself. -/
theorem drainIgnored : Obligations.DrainIgnored := by
  intro u t t' rx rx' status hw hp h h'
  rw [step_opc hw hp] at h h'
  cases h
  cases h'
  refine ⟨rfl, fun hs => ⟨statStep status (opcStep rx u), ?_, ?_⟩⟩
  · have hopc : step (u.withChoices [.phe rx, .phe status]) = .next ((opcStep rx u).withChoice (.phe status)) :=
      step_opc (u := u.withChoice (.phe status)) hw hp rx
    rw [run_succ hopc, run_succ (step_stat (u := opcStep rx u) hw rfl status)]
    rfl
  · rw [statStep_eng_rejected hs]
    exact ⟨rfl, rfl⟩

/-- DONE publishes the engine's result and sends nothing, in SEQ mode with the sequencer in RUN (41_commands R90,
42_sequencer R110). -/
theorem step_done {u : State} (hw : u.cfg.wellFormed = true) (hp : u.eng.phase = .done)
    (hrun : u.cfg.reqSource = .seq → u.seq.state = .run) (rx : Byte) :
    ∃ v, step (u.withChoice (.phe rx)) = .next v ∧ v.eng = { u.eng with phase := .idle } ∧
      v.res = u.eng.result ∧ v.trace = (doneStep u).trace := by
  rw [step_withChoice hw]
  cases hr : u.cfg.reqSource with
  | host => exact ⟨_, (PheMove.done hp hr).pheStep_eq, rfl, rfl, rfl⟩
  | seq => exact ⟨_, (PheMove.finish hp hr (hrun hr)).pheStep_eq, rfl, rfl, rfl⟩

/-- Settles O46: the rejected STAT is in DONE with `ack` clear, and DONE publishes that (`step_done`). -/
theorem rejectionEnds : Obligations.RejectionEnds := by
  intro u status rx hw hp hs hrun
  have heng := statStep_eng_rejected hs u
  refine ⟨⟨_, step_stat hw hp status, by rw [heng]⟩, ?_⟩
  have hstat : step (u.withChoices [.phe status, .phe rx]) = .next ((statStep status u).withChoice (.phe rx)) :=
    step_stat (u := u.withChoice (.phe rx)) hw hp status
  obtain ⟨v, hdone, hveng, hvres, hvtrace⟩ := step_done (u := statStep status u) hw (by rw [heng]) hrun rx
  have hres : v.res = { valid := true, cmd := u.eng.cmd, ack := false, count := 0 } := by rw [hvres, heng]; rfl
  refine ⟨v, ?_, by rw [hveng], by rw [hvtrace]; rfl, hres, by simp [State.resData, hres]⟩
  rw [run_succ hstat, run_succ hdone]
  rfl

end Sys2Proof.Machine
end

section
/-! The statements of 41_commands: the body phases OUT, SETTLE, CAP and DONE (R87 to R90), what the other agents leave
alone during an Exchange (R99), and the body of PRINT (R97). -/
namespace Sys2Proof.Machine

/-! ### The body phases, one step each -/

/-- A move of the PHE is what the step answers where the choice lets the PHE act. -/
theorem PheMove.step_eq {rx : Byte} {u t : State} (h : PheMove rx u t) (hw : u.cfg.wellFormed = true) :
    step (u.withChoice (.phe rx)) = .next t :=
  (step_withChoice hw _).trans h.pheStep_eq

/-- Settles O24: the move OUT; its two outcomes are those of `sent_cases`, as the index does not wrap below 256. -/
theorem outStep_sends_argument : Obligations.OutStep := by
  intro u rx hw hp hi
  have htx : u.eng.arg[u.eng.idx.toNat]? = some u.eng.arg[u.eng.idx.toNat] := Vector.getElem?_eq_getElem hi
  have hlast : u.eng.idx + 1 = u.eng.nout ↔ u.eng.idx.toNat + 1 = u.eng.nout.toNat := by bv_omega
  refine ⟨_, _, (PheMove.out _ hp htx).step_eq hw, htx, rfl, ?_⟩
  obtain ⟨h, hsent⟩ | ⟨h, hsent⟩ := sent_cases u.eng
  · exact ⟨fun _ => hsent, fun hne => absurd (hlast.mp h) hne⟩
  · exact ⟨fun he => absurd (hlast.mpr he) h, fun _ => hsent⟩

/-- Settles O25: the move SETTLE, by its two cases. -/
theorem settleStep_enters_cap : Obligations.SettleStep := by
  intro u rx hw hp
  rw [(PheMove.settle hp).step_eq hw]
  obtain ⟨hn, h⟩ | ⟨hn, h⟩ := settleStep_cases u <;> rw [h]
  · rw [if_neg (by bv_omega)]
  · rw [if_pos (by bv_omega)]

/-- Settles O26: the move CAP, which sets one element of the buffer; the index does not wrap below 255. -/
theorem capStep_stores_inbound : Obligations.CapStep := by
  intro u rx hw hp hi
  refine ⟨_, (PheMove.cap hp hi).step_eq hw, ?_, ?_, fun k hk => ?_⟩
  · have hlast : u.eng.idx + 1 = u.eng.ncap.setWidth 9 ↔ u.eng.idx.toNat + 1 = u.eng.ncap.toNat := by bv_omega
    obtain ⟨h, hc⟩ | ⟨h, hc⟩ := captured_cases rx u.eng
    · simp only [hc, if_pos (hlast.mp h)]
      rfl
    · simp only [hc, if_neg (mt hlast.mpr h), hp]
      rfl
  · simp [hi]
  · simp [hk.symm]

/-- The sequencer after DONE: FINISH advances the rotation, in HOST mode there is none (42_sequencer R110). -/
def State.finishedSeq (s : State) : Sequencer :=
  match s.cfg.reqSource with
  | .host => s.seq
  | .seq  => { s.seq with rot := s.seq.rot + 1, state := .await }

theorem finishedSeq_host {s : State} (hr : s.cfg.reqSource = .host) : s.finishedSeq = s.seq := by
  simp only [State.finishedSeq, hr]

theorem finishedSeq_seq {s : State} (hr : s.cfg.reqSource = .seq) :
    s.finishedSeq = { s.seq with rot := s.seq.rot + 1, state := .await } := by
  simp only [State.finishedSeq, hr]

/-- DONE in both modes: the result is published, and the sequencer is that of FINISH. -/
theorem done_move {s : State} (rx : Byte) (hp : s.eng.phase = .done)
    (hrun : s.cfg.reqSource = .seq → s.seq.state = .run) :
    PheMove rx s { doneStep s with seq := s.finishedSeq } := by
  cases hr : s.cfg.reqSource with
  | host => rw [finishedSeq_host hr]; exact .done hp hr
  | seq => rw [finishedSeq_seq hr]; exact .finish hp hr (hrun hr)

/-- Settles O28: `done_move`; the two-bit rotation counts modulo 4. -/
theorem doneStep_publishes : Obligations.DoneStep := by
  intro u rx hw hp hrun
  refine ⟨_, (done_move rx hp hrun).step_eq hw, rfl, rfl, finishedSeq_host, fun hr => ?_, rfl, rfl, rfl, rfl, rfl,
    rfl, rfl⟩
  have hrot : u.seq.rot + 1 = BitVec.ofNat 2 ((u.seq.rot.toNat + 1) % 4) := by bv_omega
  exact (finishedSeq_seq hr).trans (by rw [hrot])

/-- Settles O48: an Acknowledged PRINT captures nothing, so its argument bytes are all that follows the handshake. -/
theorem printBody_length_then_text : Obligations.PrintBody := by
  intro cfg text rx r hlen h hack
  cases exchanged_of_exch h with
  | acknowledged =>
    have hbyte : (BitVec.ofNat 8 text.length).toNat = text.length := by
      rw [BitVec.toNat_ofNat, Nat.mod_eq_of_lt (by omega)]
    exact ⟨_, hbyte, by simp, by simp; omega⟩
  | rejected => cases hack

/-! ### The steps of the other agents during an Exchange -/

/-- `t` is as `s` in all on which an Exchange depends: the engine, the results, the observation, the parameters and the
sequencer's place. A request offered in `s` and a trigger pending in `s` are there in `t` too. -/
structure SameExchange (s t : State) : Prop where
  eng     : t.eng = s.eng
  res     : t.res = s.res
  trace   : t.trace = s.trace
  cfg     : t.cfg = s.cfg
  state   : t.seq.state = s.seq.state
  rot     : t.seq.rot = s.seq.rot
  seqHost : s.cfg.reqSource = .host → t.seq = s.seq
  slot    : s.slot.valid = true → t.slot = s.slot
  trig    : s.seq.trigPend = true → t.seq.trigPend = true

theorem SameExchange.refl (s : State) : SameExchange s s where
  eng := rfl
  res := rfl
  trace := rfl
  cfg := rfl
  state := rfl
  rot := rfl
  seqHost _ := rfl
  slot _ := rfl
  trig := id

/-- No agent but the PHE and RST touches an Exchange, a full slot or a pending trigger (41_commands R99). -/
theorem SameExchange.environment {s t t' : State} {e : Event} (h : SameExchange s t) (hm : EventMove t e t')
    (hp : ∀ rx, e ≠ .phe rx) (hr : e ≠ .rst) : SameExchange s t' := by
  cases hm with
  | phe rx => exact absurd rfl (hp rx)
  | reset => exact absurd rfl hr
  | still => exact h
  | trig hq => exact { h with seqHost := fun hs => by simp [h.cfg, hs] at hq, trig := fun _ => rfl }
  | offer _ _ _ _ hv => exact { h with slot := fun hs => by simp [h.slot hs, hs] at hv }
  | refuse =>
    rw [refuse_eq]
    exact { h with }

/-- Settles O43: every state is as itself, and `SameExchange.environment`. -/
theorem noCancellation : Obligations.NoCancellation := by
  intro u t e hw _ hr hp h
  rw [step_withChoice hw] at h
  have hsame := (SameExchange.refl u).environment (eventStep_move h) hp hr
  exact ⟨hsame.eng, hsame.res, hsame.trace, hsame.cfg, hsame.state, hsame.rot⟩

end Sys2Proof.Machine
end

section
/-! Runs of the PHE: the moves of an Exchange in order, with the inbound bytes and the phases they are taken in, as runs
of the machine, alone and with the other agents' steps in between. -/
namespace Sys2Proof.Machine

/-! ### Runs of the PHE -/

/-- `PheRun s bs ps t`: from `s` the PHE makes the moves of an Exchange to `t`, brought the bytes `bs`, in the phases
`ps`. In IDLE only an acceptance is such a move. -/
inductive PheRun : State → List Byte → List Phase → State → Prop where
  | nil (s : State) : PheRun s [] [] s
  | cons {s s' t : State} {b : Byte} {bs : List Byte} {ps : List Phase} (hm : PheMove b s s')
      (hb : s.eng.phase = .idle → s'.eng.phase ≠ .idle) (hrun : PheRun s' bs ps t) :
      PheRun s (b :: bs) (s.eng.phase :: ps) t

section
variable {s t v : State} {bs bs' : List Byte} {ps ps' : List Phase}

/-- A move in a known phase before a run. -/
theorem PheRun.after {b : Byte} {p : Phase} (h : PheRun t bs ps v) (hm : PheMove b s t) (hp : s.eng.phase = p)
    (hb : p = .idle → t.eng.phase ≠ .idle) : PheRun s (b :: bs) (p :: ps) v := by
  subst hp
  exact .cons hm hb h

theorem PheRun.append (h : PheRun s bs ps t) (h' : PheRun t bs' ps' v) : PheRun s (bs ++ bs') (ps ++ ps') v := by
  induction h with
  | nil => exact h'
  | cons hm hb _ ih => exact .cons hm hb (ih h')

theorem PheRun.length_eq (h : PheRun s bs ps t) : bs.length = ps.length := by
  induction h with
  | nil => rfl
  | cons _ _ _ ih => simp [ih]

/-- A run up to the state whose move is taken in the `k`-th phase. -/
theorem PheRun.split (h : PheRun s bs ps t) {k : Nat} {p : Phase} (hk : ps[k]? = some p) :
    ∃ v sofar left, bs = sofar ++ left ∧ sofar.length = k ∧ PheRun s sofar (ps.take k) v ∧ v.eng.phase = p := by
  induction h generalizing k with
  | nil => simp at hk
  | @cons s _ _ b bs _ hm hb _ ih =>
    cases k with
    | zero => exact ⟨s, [], b :: bs, rfl, rfl, .nil s, by simpa using hk⟩
    | succ k =>
      obtain ⟨v, sofar, left, rfl, rfl, hrun, hp⟩ := ih (by simpa using hk)
      exact ⟨v, b :: sofar, left, rfl, rfl, .cons hm hb hrun, hp⟩

/-- In SEQ mode the sequencer is in RUN while an Exchange is in progress (10_state R36, 42_sequencer R109). -/
theorem PheMove.keeps_busyRun {rx : Byte} (h : PheMove rx s t) (hr : s.cfg.reqSource = .seq)
    (hs : s.eng.phase ≠ .idle → s.seq.state = .run) (ht : t.eng.phase ≠ .idle) : t.seq.state = .run := by
  cases h with
  | waitHost | waitSeq | unfinished => exact hs ht
  | accept _ _ hq | refuse _ _ hq => simp [hr] at hq
  | start => rfl
  | opc hp | stat hp | out _ hp | settle hp | cap hp => exact hs (by simp [hp])
  | done | finish => exact absurd rfl ht

theorem PheRun.keeps_busyRun (h : PheRun s bs ps t) (hr : s.cfg.reqSource = .seq)
    (hs : s.eng.phase ≠ .idle → s.seq.state = .run) (ht : t.eng.phase ≠ .idle) : t.seq.state = .run := by
  induction h with
  | nil => exact hs ht
  | cons hm _ _ ih => exact ih (hm.cfg_eq ▸ hr) (hm.keeps_busyRun hr hs) ht

/-! ### A run of the PHE as a run of the machine -/

theorem refuse_withChoices (r : RefusedInput) (es : List Event) (s : State) :
    (s.refuse r).withChoices es = (s.withChoices es).refuse r :=
  apply_ite (State.withChoices es) ..

/-- The PHE does not look at the choices left. -/
theorem PheMove.withChoices {rx : Byte} (h : PheMove rx s t) (es : List Event) :
    PheMove rx (s.withChoices es) (t.withChoices es) := by
  cases h with
  | waitHost hp hr hv => exact .waitHost hp hr hv
  | waitSeq hp hr hw => exact .waitSeq hp hr hw
  | accept i hp hr hv hd => exact .accept i hp hr hv hd
  | refuse e hp hr hv hd => rw [refuse_withChoices]; exact .refuse e hp hr hv hd
  | start i hp hr ha ht hd hc => exact .start i hp hr ha ht hd hc
  | opc hp => exact .opc hp
  | stat hp => exact .stat hp
  | out tx hp htx => exact .out tx hp htx
  | settle hp => exact .settle hp
  | cap hp hi => exact .cap hp hi
  | done hp hr => exact .done hp hr
  | finish hp hr hs => exact .finish hp hr hs
  | unfinished hp hr hs => exact .unfinished hp hr hs

/-- The oldest of several choices is the next one. -/
theorem withChoices_cons (e : Event) (es : List Event) (s : State) :
    s.withChoices (e :: es) = (s.withChoices es).withChoice e := rfl

/-- Under choices that let only the PHE act, the machine makes the moves of the run. -/
theorem PheRun.run_eq (h : PheRun s bs ps t) (hw : s.cfg.wellFormed = true) (es : List Event) :
    Sys2Proof.core.run bs.length (s.withChoices (bs.map .phe ++ es)) = .next (t.withChoices es) := by
  induction h with
  | nil => rfl
  | @cons s s' _ b bs _ hm _ _ ih =>
    have hstep := (hm.withChoices (bs.map .phe ++ es)).step_eq hw
    rw [List.map_cons, List.cons_append, withChoices_cons, List.length_cons, run_succ hstep]
    exact ih (hm.cfg_eq ▸ hw)

end

/-! ### The same run with the other agents' steps in between -/

section
variable {s s' t v : State}

/-- A move of an Exchange can be made from every state that is the same for the Exchange, to the same effect. -/
theorem SameExchange.phe {b : Byte} (h : SameExchange s v) (hm : PheMove b s s')
    (hb : s.eng.phase = .idle → s'.eng.phase ≠ .idle) : ∃ v', PheMove b v v' ∧ SameExchange s' v' := by
  obtain ⟨eng, res, ⟨state, rot, trig⟩, slot, cfg, refusals, pending, trace, draws⟩ := v
  cases h.eng; cases h.res; cases h.trace; cases h.cfg; cases h.state; cases h.rot
  cases hm with
  | waitHost hp | waitSeq hp => exact absurd hp (hb hp)
  | refuse _ hp => exact absurd hp (refuse_eng .invalidCommand s ▸ hb hp)
  | accept i hp hr hv hd =>
    cases h.slot hv
    exact ⟨_, .accept i hp hr hv hd, { h with eng := rfl, res := rfl, slot := nofun }⟩
  | start i hp hr ha ht hd hc =>
    exact ⟨_, .start i hp hr ha (h.trig ht) hd hc,
      { eng := rfl, res := rfl, trace := rfl, cfg := rfl, state := rfl, rot := rfl,
        seqHost := fun hs => by simp [hr] at hs, slot := nofun, trig := nofun }⟩
  | opc hp => exact ⟨_, .opc hp, { h with eng := rfl, trace := rfl }⟩
  | stat hp => exact ⟨_, .stat hp, { h with eng := rfl, trace := rfl }⟩
  | out tx hp htx => exact ⟨_, .out tx hp htx, { h with eng := rfl, trace := rfl }⟩
  | settle hp => exact ⟨_, .settle hp, { h with eng := rfl }⟩
  | cap hp hi => exact ⟨_, .cap hp hi, { h with eng := rfl, trace := rfl }⟩
  | done hp hr => exact ⟨_, .done hp hr, { h with eng := rfl, res := rfl, trace := rfl }⟩
  | finish hp hr hs =>
    exact ⟨_, .finish hp hr hs,
      { h with
        eng := rfl, res := rfl, trace := rfl, state := rfl, rot := rfl, seqHost := fun hs => by simp [hr] at hs }⟩
  | unfinished hp hr hs => exact ⟨_, .unfinished hp hr hs, h⟩

/-- The PHE's step keeps the choices left and the draws made, and so does every other agent's but RST. -/
theorem PheMove.choices_eq {rx : Byte} (h : PheMove rx s t) : t.pending = s.pending ∧ t.draws = s.draws := by
  cases h with
  | refuse => exact ⟨refuse_pending .., refuse_draws ..⟩
  | _ => exact ⟨rfl, rfl⟩

theorem EventMove.choices_eq {e : Event} (h : EventMove s e t) (he : e ≠ .rst) :
    t.pending = s.pending ∧ t.draws = s.draws := by
  cases h with
  | phe _ _ hm => exact hm.choices_eq
  | still | trig | offer => exact ⟨rfl, rfl⟩
  | refuse => exact ⟨refuse_pending .., refuse_draws ..⟩
  | reset => exact absurd rfl he

/-- The agents other than the PHE always have a step. -/
theorem eventStep_environment {e : Event} (he : isPheEvent e = false) (s : State) : ∃ t, eventStep e s = .next t := by
  cases e with
  | phe => cases he
  | trig | offer | line | read | rst | quiet => exact ⟨_, rfl⟩

/-- The oldest pending choice is the one that acts. -/
theorem step_of_pending_cons {e : Event} {es : List Event} (hw : s.cfg.wellFormed = true) (hp : s.pending = e :: es) :
    step s = eventStep e { s with pending := es } := by
  have hc : s.nextChoice = (e, { s with pending := es }) := by simp [State.nextChoice, hp]
  simp [step, machineStep, hw, hc]

variable {bs : List Byte} {ps : List Phase} {e : Event} {es rest : List Event}

/-- One choice of an interleaved run: the PHE makes its next move, or the Exchange is left the same. -/
theorem PheRun.next_interleaved (h : PheRun s bs ps t) (hv : SameExchange s v) (he : e ≠ .rst)
    (hes : (e :: es).filter isPheEvent = bs.map .phe) :
    ∃ s' v' bs' ps', PheRun s' bs' ps' t ∧ SameExchange s' v' ∧ eventStep e v = .next v' ∧
      es.filter isPheEvent = bs'.map .phe := by
  cases hphe : isPheEvent e with
  | false =>
    obtain ⟨v', hstep⟩ := eventStep_environment hphe v
    have hother : ∀ rx, e ≠ .phe rx := by rintro rx rfl; cases hphe
    exact ⟨s, v', bs, ps, h, hv.environment (eventStep_move hstep) hother he, hstep, by simpa [hphe] using hes⟩
  | true =>
    rw [List.filter_cons_of_pos hphe] at hes
    cases h with
    | nil => cases hes
    | cons hm hb hrun =>
      obtain ⟨rfl, hrest⟩ := List.cons_eq_cons.mp hes
      obtain ⟨v', hmv, hsame⟩ := hv.phe hm hb
      exact ⟨_, v', _, _, hrun, hsame, hmv.pheStep_eq, hrest⟩

/-- Where the PHE's choices are those of a run, the other agents' steps before, between and after them leave it the
same (41_commands R99). -/
theorem PheRun.run_interleaved (h : PheRun s bs ps t) (hv : SameExchange s v) (hw : v.cfg.wellFormed = true)
    (hes : es.filter isPheEvent = bs.map .phe) (hrst : Event.rst ∉ es) (hpend : v.pending = es ++ rest) :
    ∃ w, Sys2Proof.core.run es.length v = .next w ∧ SameExchange t w ∧ w.pending = rest ∧ w.draws = v.draws := by
  induction es generalizing s v bs ps with
  | nil =>
    obtain rfl : bs = [] := by simpa using hes.symm
    cases h
    exact ⟨v, rfl, hv, hpend, rfl⟩
  | cons e es ih =>
    obtain ⟨hne, hrst⟩ : e ≠ .rst ∧ Event.rst ∉ es := by simpa [eq_comm] using hrst
    have hv' : SameExchange s { v with pending := es ++ rest } := { hv with }
    obtain ⟨s', v', bs', ps', hrun, hsame, hstep, hes'⟩ := h.next_interleaved hv' hne hes
    have hm := eventStep_move hstep
    obtain ⟨hpend', hdraws⟩ := hm.choices_eq hne
    obtain ⟨w, hgo, hw', hp, hd⟩ := ih hrun hsame (hm.cfg_eq ▸ hw) hes' hrst hpend'
    exact ⟨w, (run_succ ((step_of_pending_cons hw hpend).trans hstep) _).trans hgo, hw', hp, hd.trans hdraws⟩

end

end Sys2Proof.Machine
end

section
/-! The run that carries EXCH out, phase by phase, and the statements about whole Exchanges. -/
namespace Sys2Proof.Machine

/-! ### The run of an Exchange, phase by phase -/

/-- `s` with the engine `e`, after the transceives `w`. -/
def State.ran (e : Eng) (w : List (Byte × Byte)) (s : State) : State :=
  { s with eng := e, trace := { s.trace with wire := s.trace.wire ++ w } }

@[simp] theorem ran_eng (e : Eng) (w : List (Byte × Byte)) (s : State) : (s.ran e w).eng = e := rfl

@[simp] theorem ran_ran (e e' : Eng) (w w' : List (Byte × Byte)) (s : State) :
    (s.ran e w).ran e' w' = s.ran e' (w ++ w') := by
  simp [State.ran]

theorem ran_self {e : Eng} {s : State} (h : s.eng = e) : s.ran e [] = s := by
  subst h
  simp [State.ran]

section
variable {s : State} {e : Eng}

/-- OUT: as many steps as there are argument bytes from the index on, then AFTER_ARGS (41_commands R87). -/
theorem run_out {args rxs : List Byte} (hp : s.eng.phase = .out) (hi : s.eng.idx < s.eng.nout)
    (hlen : rxs.length = args.length)
    (hargs : ∀ (k : Nat) (b : Byte), args[k]? = some b → s.eng.arg[s.eng.idx.toNat + k]? = some b)
    (hidx : s.eng.idx.toNat + args.length = s.eng.nout.toNat) :
    PheRun s rxs (List.replicate args.length .out)
      (s.ran (Eng.afterArgs { s.eng with idx := s.eng.nout }) (args.zip rxs)) := by
  induction args generalizing s rxs with
  | nil => rw [List.length_nil] at hidx; bv_omega
  | cons tx args ih =>
    obtain ⟨rx, rxs, rfl⟩ : ∃ rx rxs', rxs = rx :: rxs' := List.exists_cons_of_length_eq_add_one hlen
    have htx : s.eng.arg[s.eng.idx.toNat]? = some tx := hargs 0 tx rfl
    have hm : PheMove rx s (s.ran s.eng.sent [(tx, rx)]) := .out tx hp htx
    simp only [List.length_cons] at hidx hlen
    obtain ⟨hlast, h⟩ | ⟨hmore, h⟩ := sent_cases s.eng <;> rw [h] at hm
    · have hnil : args = [] := List.eq_nil_of_length_eq_zero (by bv_omega)
      subst hnil
      obtain rfl : rxs = [] := by simpa using hlen
      rw [hlast] at hm
      exact (PheRun.nil _).after hm hp nofun
    · have hidx' : (s.eng.idx + 1).toNat = s.eng.idx.toNat + 1 := by bv_omega
      have hi' : s.eng.idx + 1 < s.eng.nout := by bv_omega
      have hargs' (k : Nat) (b : Byte) (hk : args[k]? = some b) : s.eng.arg[(s.eng.idx + 1).toNat + k]? = some b := by
        rw [hidx', Nat.add_assoc, Nat.add_comm 1]
        exact hargs (k + 1) b hk
      have hleft : (s.eng.idx + 1).toNat + args.length = s.eng.nout.toNat := by omega
      have hrest := ih (s := s.ran { s.eng with idx := s.eng.idx + 1 } [(tx, rx)]) hp hi' (Nat.succ.inj hlen) hargs'
        hleft
      rw [ran_ran] at hrest
      exact hrest.after hm hp nofun

/-- CAP: as many steps as there are bytes left to capture, which then stand in the buffer (41_commands R89). -/
theorem run_cap {rxs : List Byte} (hp : s.eng.phase = .cap) (hi : s.eng.idx < s.eng.ncap.setWidth 9)
    (hidx : s.eng.idx.toNat + rxs.length = s.eng.ncap.toNat) :
    ∃ e : Eng, PheRun s rxs (List.replicate rxs.length .cap)
        (s.ran e ((List.replicate rxs.length fillerSentinel).zip rxs)) ∧
      e.phase = .done ∧ e.result = s.eng.result ∧
      e.rsp.toList.take s.eng.ncap.toNat = s.eng.rsp.toList.take s.eng.idx.toNat ++ rxs := by
  induction rxs generalizing s with
  | nil => rw [List.length_nil] at hidx; bv_omega
  | cons rx rxs ih =>
    simp only [List.length_cons] at hidx
    have hin : s.eng.idx.toNat < 255 := by omega
    have hidx' : (s.eng.idx + 1).toNat = s.eng.idx.toNat + 1 := by bv_omega
    have hm : PheMove rx s (s.ran (s.eng.captured rx) [(fillerSentinel, rx)]) := .cap hp hin
    have htake := take_setIfInBounds_succ s.eng.rsp rx hin
    obtain ⟨hlast, h⟩ | ⟨hmore, h⟩ := captured_cases rx s.eng <;> rw [h] at hm
    · have hnil : rxs = [] := List.eq_nil_of_length_eq_zero (by bv_omega)
      subst hnil
      refine ⟨_, (PheRun.nil _).after hm hp nofun, rfl, rfl, ?_⟩
      rw [← htake, ← hidx]
      rfl
    · have hi' : s.eng.idx + 1 < s.eng.ncap.setWidth 9 := by bv_omega
      have hleft : (s.eng.idx + 1).toNat + rxs.length = s.eng.ncap.toNat := by omega
      obtain ⟨e, hrun, hdone, hres, hbuf⟩ := ih (s := s.ran { s.eng with
        rsp := s.eng.rsp.setIfInBounds s.eng.idx.toNat rx, idx := s.eng.idx + 1 } [(fillerSentinel, rx)]) hp hi' hleft
      rw [ran_ran] at hrun
      refine ⟨e, hrun.after hm hp nofun, hdone, hres, ?_⟩
      calc e.rsp.toList.take s.eng.ncap.toNat
          = (s.eng.rsp.setIfInBounds s.eng.idx.toNat rx).toList.take (s.eng.idx + 1).toNat ++ rxs := hbuf
        _ = s.eng.rsp.toList.take s.eng.idx.toNat ++ (rx :: rxs) := by rw [hidx', htake, List.append_assoc]; rfl

/-- CAP from its entry, in which SETTLE and AFTER_ARGS agree: a step for each byte to capture (41_commands R89). -/
theorem run_captures {caps : List Byte} (hlen : caps.length = e.ncap.toNat)
    (hs : s.eng = if 0 < e.ncap then { e with idx := 0, phase := .cap } else { e with phase := .done }) :
    ∃ e' : Eng, PheRun s caps (List.replicate caps.length Phase.cap)
        (s.ran e' ((List.replicate caps.length fillerSentinel).zip caps)) ∧
      e'.phase = .done ∧ e'.result = e.result ∧ e'.rsp.toList.take e.ncap.toNat = caps := by
  by_cases hn : 0 < e.ncap
  · rw [if_pos hn] at hs
    have hi : 0 < e.ncap.setWidth 9 := by bv_omega
    simpa [hs, Eng.result] using run_cap (s := s) (by rw [hs]) (by rw [hs]; exact hi) (by simp [hs, hlen])
  · have hz : e.ncap.toNat = 0 := Nat.eq_zero_of_not_pos hn
    obtain rfl : caps = [] := List.eq_nil_of_length_eq_zero (hlen.trans hz)
    rw [if_neg hn] at hs
    exact ⟨{ e with phase := .done }, (ran_self hs).symm ▸ .nil s, rfl, rfl, by simp [hz]⟩

/-- What follows the argument bytes: the settle wait if the command has one, then CAP (40_handshake R80). -/
theorem run_afterArgs {caps : List Byte} (unused : Byte) (hlen : caps.length = e.ncap.toNat)
    (hs : s.eng = e.afterArgs) :
    ∃ e' : Eng, PheRun s ((if e.settle then [unused] else []) ++ caps)
        ((if e.settle then [Phase.settle] else []) ++ List.replicate caps.length Phase.cap)
        (s.ran e' ((List.replicate caps.length fillerSentinel).zip caps)) ∧
      e'.phase = .done ∧ e'.result = e.result ∧ e'.rsp.toList.take e.ncap.toNat = caps := by
  cases hset : e.settle with
  | false => exact run_captures hlen (by simp [hs, Eng.afterArgs, hset])
  | true =>
    rw [afterArgs_settle_set hset] at hs
    have hp : s.eng.phase = .settle := by rw [hs]
    obtain ⟨e', hrun, hend⟩ := run_captures (s := settleStep s) hlen (by rw [settleStep_eng, hs])
    exact ⟨e', hrun.after (.settle hp) hp nofun, hend⟩

/-- The argument bytes of an Acknowledged Exchange, if any (40_handshake R78, 41_commands R87). -/
theorem run_args {args rxs : List Byte} (hs : s.eng = e.gated true) (hlen : rxs.length = args.length)
    (hnout : e.nout.toNat = args.length) (hargs : ∀ (k : Nat) (b : Byte), args[k]? = some b → e.arg[k]? = some b) :
    PheRun s rxs (List.replicate args.length .out)
      (s.ran (Eng.afterArgs { e with ack := true, idx := e.nout }) (args.zip rxs)) := by
  by_cases hn : 0 < e.nout
  · rw [gated_true_out hn] at hs
    have hrun := run_out (s := s) (by rw [hs]) (by rw [hs]; exact hn) hlen (by simpa [hs] using hargs)
      (by simp [hs, hnout])
    rw [hs] at hrun
    exact hrun
  · have hz : e.nout = 0 := by bv_omega
    obtain rfl : args = [] := List.eq_nil_of_length_eq_zero (by rw [← hnout, hz]; rfl)
    obtain rfl : rxs = [] := by simpa using hlen
    have heng : s.eng = Eng.afterArgs { e with ack := true, idx := e.nout } := by
      simp only [hs, gated_true_afterArgs hz, hz]
    exact (ran_self heng).symm ▸ .nil s

/-- The body of an Acknowledged Exchange, as a whole. -/
theorem run_body {args rxs caps : List Byte} (unused : Byte) (hs : s.eng = e.gated true)
    (hlen : rxs.length = args.length) (hnout : e.nout.toNat = args.length)
    (hargs : ∀ (k : Nat) (b : Byte), args[k]? = some b → e.arg[k]? = some b) (hcaps : caps.length = e.ncap.toNat) :
    ∃ e' : Eng, PheRun s (rxs ++ ((if e.settle then [unused] else []) ++ caps))
        (List.replicate args.length Phase.out ++
          ((if e.settle then [Phase.settle] else []) ++ List.replicate caps.length Phase.cap))
        (s.ran e' (args.zip rxs ++ (List.replicate caps.length fillerSentinel).zip caps)) ∧
      e'.phase = .done ∧ e'.result = ⟨true, e.cmd, true, e.ncap⟩ ∧ e'.rsp.toList.take e.ncap.toNat = caps := by
  have hout := run_args hs hlen hnout hargs
  obtain ⟨e', hrun, hend⟩ :=
    run_afterArgs (s := s.ran _ (args.zip rxs)) (e := { e with ack := true, idx := e.nout }) unused hcaps rfl
  rw [ran_ran] at hrun
  exact ⟨e', hout.append hrun, hend⟩

end

/-! ### From the acceptance to the published result -/

/-- `u` with the request that is accepted next in the slot: in SEQ mode START presents it (42_sequencer R109). -/
def State.presented (u : State) : State :=
  match u.cfg.reqSource with
  | .host => u
  | .seq  => u.presentRotation

theorem presented_host {u : State} (hr : u.cfg.reqSource = .host) : u.presented = u := by
  simp only [State.presented, hr]

theorem presented_seq {u : State} (hr : u.cfg.reqSource = .seq) : u.presented = u.presentRotation := by
  simp only [State.presented, hr]

@[simp] theorem presented_cfg (u : State) : u.presented.cfg = u.cfg := by
  unfold State.presented; split <;> rfl

@[simp] theorem presented_trace (u : State) : u.presented.trace = u.trace := by
  unfold State.presented; split <;> rfl

@[simp] theorem presented_refusals (u : State) : u.presented.refusals = u.refusals := by
  unfold State.presented; split <;> rfl

@[simp] theorem presented_pending (u : State) : u.presented.pending = u.pending := by
  unfold State.presented; split <;> rfl

@[simp] theorem presented_draws (u : State) : u.presented.draws = u.draws := by
  unfold State.presented; split <;> rfl

/-- An Exchange starts with the acceptance of its instruction, in both modes (40_handshake R75, 42_sequencer R109). -/
theorem accept_move {u : State} {i : Instr} (h : u.startsExchange i) (rx : Byte) :
    PheMove rx u (u.presented.accept i.cmd (argBytes i)) := by
  obtain ⟨hp, ⟨hr, hv, hd⟩ | ⟨hr, ha, ht, hd⟩⟩ := h
  · rw [presented_host hr]
    exact .accept i hp hr hv hd
  · obtain ⟨j, hj, hc⟩ := rotation_decodes u
    obtain rfl : i = j := by simpa [hd] using hj
    rw [presented_seq hr]
    exact .start i hp hr ha ht hd hc

theorem idle_of_startsExchange {u : State} {i : Instr} (h : u.startsExchange i) : u.eng.phase = .idle :=
  h.1

theorem wellFormed_of_startsExchange {u : State} {i : Instr} (h : u.startsExchange i) : i.wellFormed = true := by
  obtain ⟨-, ⟨-, -, hd⟩ | ⟨-, -, -, hd⟩⟩ := h
  · exact decodeRequest_wellFormed hd
  · exact decodeRequest_wellFormed hd

/-- The phases of an Exchange are those of the catalog's columns (41_commands R96). -/
theorem phaseSequence_eq (cfg : Config) (i : Instr) (ack : Bool) :
    phaseSequence cfg i ack = [Phase.opc, Phase.stat] ++
      (if ack then List.replicate (argBytes i).length Phase.out ++
        ((if cfg.settleOf i.cmd then [Phase.settle] else []) ++ List.replicate (captures cfg i) Phase.cap)
      else []) ++ [Phase.done] := by
  cases ack with
  | false => rfl
  | true =>
    cases i with
    | print text => simp [phaseSequence, Config.settleOf, Instr.cmd, Nat.add_comm]
    | idRead => simp [phaseSequence, Config.settleOf, Instr.cmd]
    | ledControl | sensorRead | ledRead => rfl

theorem idle_notMem_phaseSequence (cfg : Config) (i : Instr) (ack : Bool) : .idle ∉ phaseSequence cfg i ack := by
  rw [phaseSequence_eq]
  cases ack with
  | false => simp
  | true => cases cfg.settleOf i.cmd <;> simp

/-- The choices of an Exchange are the PHE's, with these bytes, after which `unused` comes to DONE. -/
theorem exchangeEvents_acknowledged (cfg : Config) (i : Instr) (unused first status : Byte) (body : List Byte) :
    exchangeEvents cfg i true unused (first :: status :: body) =
      ([unused] ++ ([first, status] ++ (body.take (argBytes i).length ++
        ((if cfg.settleOf i.cmd then [unused] else []) ++ body.drop (argBytes i).length)) ++ [unused])).map .phe := by
  simp only [exchangeEvents, Nat.add_comm 2]
  cases cfg.settleOf i.cmd <;> simp

theorem exchangeEvents_rejected (cfg : Config) (i : Instr) (unused first status : Byte) :
    exchangeEvents cfg i false unused [first, status] = ([unused] ++ ([first, status] ++ [unused])).map .phe := by
  simp [exchangeEvents, Nat.add_comm 2]

/-- The handshake: the opcode, then the status byte and the gate (40_handshake R77, R78). -/
theorem run_handshake {s : State} (hp : s.eng.phase = .opc) (first status : Byte) :
    PheRun s [first, status] [.opc, .stat]
      (s.ran (Eng.gated (gate status) { s.eng with phase := .stat })
        [(s.eng.opc, first), (fillerSentinel, status)]) := by
  have hopc : PheMove first s (s.ran { s.eng with phase := .stat } [(s.eng.opc, first)]) := .opc hp
  have hstat : PheMove status (s.ran { s.eng with phase := .stat } [(s.eng.opc, first)])
      ((s.ran { s.eng with phase := .stat } [(s.eng.opc, first)]).ran _ [(fillerSentinel, status)]) := .stat rfl
  rw [ran_ran] at hstat
  exact ((PheRun.nil _).after hstat rfl nofun).after hopc hp nofun

/-- From the acceptance in `p`, the engine sends EXCH's bytes and comes to DONE with EXCH's result. -/
theorem run_to_done {p : State} {i : Instr} {rx : List Byte} {r : ExchangeResult} (hi : i.wellFormed = true)
    (h : Exchanged p.cfg i rx r) (unused : Byte) :
    ∃ bs ps e, exchangeEvents p.cfg i r.ack unused rx = ([unused] ++ (bs ++ [unused])).map .phe ∧
      phaseSequence p.cfg i r.ack = ps ++ [Phase.done] ∧
      PheRun (p.accept i.cmd (argBytes i)) bs ps ((p.accept i.cmd (argBytes i)).ran e (r.tx.zip rx)) ∧
      e.phase = .done ∧ e.result = ⟨true, i.cmd, r.ack, BitVec.ofNat 8 r.data.length⟩ ∧
      e.rsp.toList.take e.result.count.toNat = r.data := by
  have hacc := acceptedAs_accept p i.cmd (argBytes_length_le hi)
  generalize p.accept i.cmd (argBytes i) = s at hacc ⊢
  have hhand (first status : Byte) := run_handshake hacc.phase first status
  cases h with
  | rejected first status hs =>
    have hrun := hhand first status
    rw [gate_false.mpr hs, hacc.opc] at hrun
    exact ⟨_, _, { s.eng with phase := .done, ack := false }, exchangeEvents_rejected .., phaseSequence_eq .., hrun,
      rfl, by simp [Eng.result, hacc.cmd], rfl⟩
  | acknowledged first body hlen =>
    have hsent : (body.take (argBytes i).length).length = (argBytes i).length := by simp; omega
    have hcaps : (body.drop (argBytes i).length).length = captures p.cfg i := by simp; omega
    have hshake := hhand first ackSentinel
    rw [gate_true.mpr rfl] at hshake
    obtain ⟨e, hbody, hdone, hres, hbuf⟩ :=
      run_body (s := s.ran _ [(s.eng.opc, first), (fillerSentinel, ackSentinel)]) (e := { s.eng with phase := .stat })
        unused rfl hsent hacc.nout hacc.args (hcaps.trans (congrArg _ hacc.ncap.symm))
    have hrun := hshake.append hbody
    rw [ran_ran, hacc.opc, hcaps, hacc.settle] at hrun
    rw [hacc.cmd, hacc.ncap] at hres
    rw [hacc.ncap] at hbuf
    have hwire : (argBytes i ++ List.replicate (captures p.cfg i) fillerSentinel).zip body =
        (argBytes i).zip (body.take (argBytes i).length) ++
          (List.replicate (captures p.cfg i) fillerSentinel).zip (body.drop (argBytes i).length) := by
      rw [← List.zip_append hsent.symm, List.take_append_drop]
    refine ⟨_, _, e, exchangeEvents_acknowledged .., phaseSequence_eq .., ?_, hdone, ?_, ?_⟩
    · rw [List.zip_cons_cons, List.zip_cons_cons, hwire]
      exact hrun
    · rw [hres, hcaps, captures, BitVec.ofNat_toNat, BitVec.setWidth_eq]
    · rw [hres]
      exact hbuf

/-- What an Exchange started in `u`, with EXCH's result `r`, has done once it is published in `t`. -/
structure Completed (u : State) (i : Instr) (rx : List Byte) (r : ExchangeResult) (t : State) : Prop where
  wire     : t.trace.wire = u.trace.wire ++ r.tx.zip rx
  results  : t.trace.results = u.trace.results ++ [⟨i.cmd, r.ack, r.data⟩]
  res      : t.res = { valid := true, cmd := i.cmd, ack := r.ack, count := BitVec.ofNat 8 r.data.length }
  resData  : t.resData = r.data
  phase    : t.eng.phase = .idle
  slot     : t.slot = { u.presented.slot with valid := false }
  seq      : t.seq = u.presented.finishedSeq
  cfg      : t.cfg = u.cfg
  refusals : t.refusals = u.refusals
  pending  : t.pending = u.pending
  draws    : t.draws = u.draws

theorem presented_run {u : State} (hr : u.cfg.reqSource = .seq) : u.presented.seq.state = .run := by
  rw [presented_seq hr]
  rfl

/-- The step rules carry EXCH out: a run of the PHE through the Exchange's phases, under its choices. -/
theorem exchange_run {u : State} {i : Instr} {rx : List Byte} {r : ExchangeResult} (hu : u.startsExchange i)
    (hx : exch u.cfg i rx = some r) (unused : Byte) :
    ∃ bs t, exchangeEvents u.cfg i r.ack unused rx = bs.map .phe ∧
      PheRun u bs (.idle :: phaseSequence u.cfg i r.ack) t ∧ Completed u i rx r t := by
  have hx' : Exchanged u.presented.cfg i rx r := presented_cfg u ▸ exchanged_of_exch hx
  obtain ⟨bs, ps, e, hevents, hphases, hrun, hdone, hres, hbuf⟩ :=
    run_to_done (wellFormed_of_startsExchange hu) hx' unused
  have hfinish := done_move (s := (u.presented.accept i.cmd (argBytes i)).ran e (r.tx.zip rx)) unused hdone fun hr =>
    presented_run (presented_cfg u ▸ hr)
  have hwhole := (hrun.append ((PheRun.nil _).after hfinish hdone nofun)).after (accept_move hu unused)
    (idle_of_startsExchange hu) fun _ => nofun
  rw [presented_cfg] at hevents hphases
  rw [hphases]
  exact ⟨_, _, hevents, hwhole,
    { wire := by rw [← presented_trace u]; rfl
      results := by
        show u.presented.trace.results ++ [⟨e.result.cmd, e.result.ack, e.rsp.toList.take e.result.count.toNat⟩] = _
        rw [hbuf, hres, presented_trace]
      res := hres
      resData := hbuf
      phase := rfl
      slot := rfl
      seq := rfl
      cfg := presented_cfg u
      refusals := presented_refusals u
      pending := presented_pending u
      draws := presented_draws u }⟩

/-! ### The statements about whole Exchanges -/

/-- An Exchange has as many choices of the PHE as engine steps (41_commands R103). -/
theorem exchangeEvents_length {cfg : Config} {i : Instr} {rx : List Byte} {r : ExchangeResult}
    (hx : exch cfg i rx = some r) (unused : Byte) :
    (exchangeEvents cfg i r.ack unused rx).length = engineSteps cfg i r.ack := by
  obtain ⟨hcount, hlen, -⟩ := (exchanged_of_exch hx).counts
  have hsplit (n : Nat) : (rx.take n).length + (rx.drop n).length = rx.length := by
    rw [← List.length_append, List.take_append_drop]
  have hrx := hsplit (2 + (argBytes i).length)
  unfold exchangeEvents engineSteps
  split <;> simp only [List.length_cons, List.length_append, List.length_map, List.length_nil] <;> omega

/-- Under its choices the machine carries an Exchange out in `T + 2 + s` steps (41_commands R101, R103). -/
theorem exchange_machine_run {u : State} {i : Instr} {rx : List Byte} {r : ExchangeResult}
    (hw : u.cfg.wellFormed = true) (hu : u.startsExchange i) (hx : exch u.cfg i rx = some r) (unused : Byte) :
    ∃ t, Sys2Proof.core.run (engineSteps u.cfg i r.ack)
        (u.withChoices (exchangeEvents u.cfg i r.ack unused rx)) = .next t ∧ Completed u i rx r t := by
  obtain ⟨bs, t, hevents, hrun, hdone⟩ := exchange_run hu hx unused
  have hgo := hrun.run_eq hw []
  rw [List.append_nil, ← List.length_map Event.phe, ← hevents, exchangeEvents_length hx] at hgo
  exact ⟨t, hgo, hdone⟩

/-- Settles O49: in HOST mode the accepted request is the offered one, and the sequencer is left alone. -/
theorem exchangeRun : Obligations.ExchangeRun := by
  intro u i rx r unused hw hr hp hv hd hx
  obtain ⟨t, hgo, hdone⟩ := exchange_machine_run hw ⟨hp, .inl ⟨hr, hv, hd⟩⟩ hx unused
  have hslot : t.slot = { u.slot with valid := false } := by rw [hdone.slot, presented_host hr]
  have hseq : t.seq = u.seq := by rw [hdone.seq, presented_host hr, finishedSeq_host hr]
  exact ⟨t, hgo, hdone.wire, hdone.results, hdone.res, hdone.resData, hdone.phase, hslot, hseq, hdone.cfg,
    hdone.refusals, hdone.pending, hdone.draws⟩

/-- Settles O59: the interleaved run ends as the run of the PHE alone, for all on which the Exchange depends. -/
theorem interleavedRun : Obligations.InterleavedRun := by
  intro u i rx r unused es hw hu hx hes hrst
  obtain ⟨bs, t, hevents, hrun, hdone⟩ := exchange_run hu hx unused
  have hsame : SameExchange u (u.withChoices es) := { SameExchange.refl u with }
  obtain ⟨w, hgo, ht, hpend, hdraws⟩ := hrun.run_interleaved hsame hw (hes.trans hevents) hrst rfl
  have hcfg : w.cfg = u.cfg := ht.cfg.trans hdone.cfg
  refine ⟨w, hgo, by rw [ht.trace, hdone.wire], by rw [ht.trace, hdone.results], ht.res.trans hdone.res, ?_,
    by rw [ht.eng, hdone.phase], hcfg, hpend, hdraws, fun hr => ?_, fun hr => ?_⟩
  · have hview : w.resData = t.resData := by simp only [State.resData, ht.eng, ht.res]
    exact hview.trans hdone.resData
  · rw [ht.seqHost (hdone.cfg ▸ hr), hdone.seq, presented_host hr, finishedSeq_host hr]
  · rw [ht.state, ht.rot, hdone.seq, finishedSeq_seq (presented_cfg u ▸ hr), presented_seq hr]
    exact ⟨rfl, rfl⟩

/-- Settles O51: the run of the PHE goes through the phases, and up to each of them it is what the machine does. -/
theorem phaseRun : Obligations.PhaseRun := by
  intro u i rx r unused hw hu hx
  obtain ⟨bs, t, hevents, hrun, -⟩ := exchange_run hu hx unused
  obtain ⟨t, hgo, hdone⟩ := exchange_machine_run hw hu hx unused
  refine ⟨?_, fun k p hk => ?_, t, hgo, hdone.phase, fun hr => ?_⟩
  · rw [← exchangeEvents_length hx unused, hevents, List.length_map, hrun.length_eq, List.length_cons]
  · obtain ⟨v, sofar, left, rfl, hk', hsofar, hp⟩ := hrun.split (k := k + 1) hk
    have hgo := hsofar.run_eq hw (left.map .phe)
    rw [← List.map_append, hk', ← hevents] at hgo
    have hbusy : p ≠ .idle := fun h => idle_notMem_phaseSequence u.cfg i r.ack (h ▸ List.mem_of_getElem? hk)
    exact ⟨_, hgo, hp, fun hr => hsofar.keeps_busyRun hr (absurd (idle_of_startsExchange hu)) (hp ▸ hbusy)⟩
  · rw [hdone.seq, finishedSeq_seq (presented_cfg u ▸ hr)]

end Sys2Proof.Machine
end

section
/-! The statements of 42_sequencer: the trigger latch (R108), START with the rotation's command (R107, R109, R111),
FINISH (R110), and the one command that the rotation leaves out (R112). -/
namespace Sys2Proof.Machine

/-! ### The rotation table -/

/-- The rotation LED_CONTROL, SENSOR_READ, LED_READ, PRINT (42_sequencer R107). -/
theorem rotation_table (rot : BitVec 2) :
    [Cmd.ledControl, .sensorRead, .ledRead, .print][rot.toNat]? = some (rotation rot) := by
  revert rot; decide

theorem rotation_ne_idRead (rot : BitVec 2) : rotation rot ≠ .idRead := by
  revert rot; decide

/-- The arguments of the rotation's current command (42_sequencer R111). -/
def State.rotationArgs (s : State) : SeqArg := s.cfg.seqArgs[s.seq.rot.toNat]'s.seq.rot.isLt

theorem rotationRequest_eq (s : State) : s.rotationRequest =
    .ofFields s.rotationArgs.tlen s.rotationArgs.v s.rotationArgs.a (rotation s.seq.rot).id s.rotationArgs.text := rfl

/-- In AWAIT with a trigger pending the PHE's next step is START of the instruction that the request presents. -/
theorem startsExchange_of_trigger {u : State} {i : Instr} (hr : u.cfg.reqSource = .seq) (hp : u.eng.phase = .idle)
    (ha : u.seq.state = .await) (ht : u.seq.trigPend = true) (hd : decodeRequest u.rotationRequest = .ok i) :
    u.startsExchange i :=
  ⟨hp, .inr ⟨hr, ha, ht, hd⟩⟩

/-- START, jointly with ACCEPT, as a step of the machine (42_sequencer R109). -/
theorem step_start {u : State} {i : Instr} (hw : u.cfg.wellFormed = true) (hr : u.cfg.reqSource = .seq)
    (hu : u.startsExchange i) (rx : Byte) :
    step (u.withChoice (.phe rx)) = .next (u.presentRotation.accept i.cmd (argBytes i)) := by
  rw [← presented_seq hr]
  exact (accept_move hu rx).step_eq hw

/-! ### START, the Exchange and FINISH -/

/-- Settles O50: the run of the Exchange that START begins; DONE is taken with FINISH. -/
theorem rotationRun : Obligations.RotationRun := by
  intro u i rx r unused hw hr hp ha ht hd hx
  obtain ⟨t, hgo, hdone⟩ := exchange_machine_run hw (startsExchange_of_trigger hr hp ha ht hd) hx unused
  have hslot : t.slot.valid = false := by rw [hdone.slot]
  have hseq : t.seq = { state := .await, rot := u.seq.rot + 1, trigPend := false } := by
    rw [hdone.seq, finishedSeq_seq (presented_cfg u ▸ hr), presented_seq hr]
    rfl
  exact ⟨t, hgo, hdone.wire, hdone.results, hdone.res, hdone.resData, hdone.phase, hslot, hseq, hdone.cfg,
    hdone.refusals, hdone.pending, hdone.draws⟩

/-- Settles O11: START accepts the instruction that the presented request decodes to, which is its meaning in IDLE. -/
theorem stepRunsRotation : Obligations.StepRunsRotation := by
  intro u rx hw hr hp ha ht
  have hd : decodeRequest u.rotationRequest = .ok (u.rotationRequest.instr (rotation u.seq.rot)) :=
    decodeRequest_ofFields ..
  refine ⟨u.rotationArgs, rotation u.seq.rot, u.rotationRequest.instr (rotation u.seq.rot),
    Vector.getElem?_eq_getElem u.seq.rot.isLt, rotation_table _, ?operands, ?start⟩
  case operands =>
    rw [rotationRequest_eq]
    cases rotation u.seq.rot <;> simp [Request.instr]
  case start =>
    rw [step_start hw hr (startsExchange_of_trigger hr hp ha ht hd)]
    exact (exec_idle (s := u.presentRotation) (decodeRequest_wellFormed hd) hp).symm

/-- Settles O58: both entries decode to the same instruction, and START writes nothing else of the table. -/
theorem ignoredRotationFields : Obligations.IgnoredRotationFields := by
  intro u t args rx hw hr hp ha ht hagree h
  obtain ⟨i, hd, -⟩ := rotation_decodes u
  have hd' : decodeRequest (u.withSeqArgs args).rotationRequest = .ok i := hagree.decodeRequest_eq.trans hd
  rw [step_start hw hr (startsExchange_of_trigger hr hp ha ht hd)] at h
  cases h
  exact ⟨_, step_start (u := u.withSeqArgs args) hw hr (startsExchange_of_trigger hr hp ha ht hd') rx, rfl⟩

/-! ### ID_READ is no command of the rotation -/

/-- In SEQ mode the PHE takes a new command only from the rotation (42_sequencer R112). -/
theorem PheMove.cmd_of_seq {rx : Byte} {s t : State} (h : PheMove rx s t) (hr : s.cfg.reqSource = .seq) :
    t.eng.cmd = s.eng.cmd ∨ t.eng.cmd = rotation s.seq.rot := by
  cases h with
  | start _ _ _ _ _ _ hc => exact .inr hc
  | accept _ _ hq | refuse _ _ hq => simp [hr] at hq
  | waitHost | waitSeq | opc | done | finish | unfinished => exact .inl rfl
  | stat => exact .inl (gated_cmd ..)
  | out => exact .inl (sent_cmd _)
  | cap => exact .inl (captured_cmd ..)
  | settle => obtain ⟨-, h⟩ | ⟨-, h⟩ := settleStep_cases s <;> simp [h]

/-- No agent brings ID_READ into the engine in SEQ mode; a RESET leaves LED_CONTROL there. -/
theorem EventMove.cmd_ne_idRead {e : Event} {s t : State} (h : EventMove s e t) (hr : s.cfg.reqSource = .seq)
    (hs : s.eng.cmd ≠ .idRead) : t.eng.cmd ≠ .idRead := by
  cases h with
  | phe _ _ hm =>
    obtain hc | hc := hm.cmd_of_seq hr <;> rw [hc]
    · exact hs
    · exact rotation_ne_idRead _
  | still | trig | offer => exact hs
  | refuse => rwa [refuse_eng]
  | reset => simp

/-- Settles O39, move by move (`EventMove.cmd_ne_idRead`). -/
theorem noIdReadInSeq : Obligations.NoIdReadInSeq := by
  intro s t hr hs h
  obtain rfl | ⟨e, p, d, hm⟩ := step_move h
  · rwa [refuse_eng]
  · exact hm.cmd_ne_idRead hr hs

/-! ### The trigger latch -/

/-- A TRIG event in SEQ mode sets the latch and nothing else, in every state (42_sequencer R108). -/
theorem step_trig_seq {u : State} (hw : u.cfg.wellFormed = true) (hr : u.cfg.reqSource = .seq) :
    step (u.withChoice .trig) = .next { u with seq := { u.seq with trigPend := true } } := by
  simp [step_withChoice hw, eventStep, trigStep, hr]

/-- In HOST mode it changes nothing (10_state R29; log 8). -/
theorem step_trig_host {u : State} (hw : u.cfg.wellFormed = true) (hr : u.cfg.reqSource = .host) :
    step (u.withChoice .trig) = .next u := by
  simp [step_withChoice hw, eventStep, trigStep, hr]

/-- Settles O29: the second event is a first one in the state that the first leaves. -/
theorem triggerLatch : Obligations.TriggerLatch := fun u hw =>
  ⟨fun hr => ⟨step_trig_seq hw hr, step_trig_seq (u := { u with seq := { u.seq with trigPend := true } }) hw hr⟩,
    step_trig_host hw⟩

end Sys2Proof.Machine
end

section
/-! The statements of 60_exceptions: the refusals of R119 stay and change nothing else, an instance or a text that has
no meaning is refused, no step stops the machine (R116), and the PHE waits without changing the state (R130). -/
namespace Sys2Proof.Machine

section
variable {rx : Byte} {e : Event} {s t : State}

/-! ### What a step does to the recorded refusals -/

/-- A move of the PHE that touches the record of refusals does nothing else (R119). -/
theorem PheMove.refusals_eq_or_refuse (h : PheMove rx s t) : t.refusals = s.refusals ∨ ∃ r, t = s.refuse r := by
  cases h with
  | refuse => exact .inr ⟨_, rfl⟩
  | _ => exact .inl rfl

/-- Nor does a move of any other agent; RESET keeps the record (log 7). -/
theorem EventMove.refusals_eq_or_refuse (h : EventMove s e t) : t.refusals = s.refusals ∨ ∃ r, t = s.refuse r := by
  cases h with
  | phe _ _ hm => exact hm.refusals_eq_or_refuse
  | refuse => exact .inr ⟨_, rfl⟩
  | still | trig | offer | reset => exact .inl rfl

/-- A step keeps the record of refusals, or records one and otherwise only takes a choice. -/
theorem step_refusals_eq_or_refuse (h : step s = .next t) :
    t.refusals = s.refusals ∨ ∃ r p d, t = State.refuse r { s with pending := p, draws := d } := by
  obtain rfl | ⟨e, p, d, hm⟩ := step_move h
  · exact .inr ⟨.illFormedInstance, s.pending, s.draws, rfl⟩
  · exact hm.refusals_eq_or_refuse.imp_right fun ⟨r, hr⟩ => ⟨r, p, d, hr⟩

/-! ### The invariants keep the buffer indices in range (20_memory R41) -/

theorem State.Inv.arg_index_lt (h : s.Inv) (hp : s.eng.phase = .out) : s.eng.idx.toNat < 256 := by
  obtain ⟨-, hi⟩ := h.rule.outBody hp
  obtain ⟨-, hn⟩ := h.rule.counts
  exact (BitVec.lt_def.mp hi).trans_le hn

theorem State.Inv.rsp_index_lt (h : s.Inv) (hp : s.eng.phase = .cap) : s.eng.idx.toNat < 255 := by
  obtain ⟨-, hi⟩ := h.rule.capBody hp
  obtain ⟨hn, -⟩ := h.rule.counts
  bv_omega

/-- Under the invariants no agent's step stops: the PHE's could only on an index out of range. -/
theorem State.Inv.eventStep_next (h : s.Inv) (e : Event) : ∃ t, eventStep e s = .next t := by
  cases e with
  | phe rx => exact pheStep_total rx s h.arg_index_lt h.rsp_index_lt
  | trig | offer | line | read | rst | quiet => exact ⟨_, rfl⟩

/-- The invariants do not read the choices left and the draws made. -/
theorem State.Inv.nextChoice (h : s.Inv) : s.nextChoice.2.Inv := by
  rw [nextChoice_rest]
  exact h.congr rfl rfl rfl rfl rfl

end

/-! ### The obligations -/

/-- Settles O41: a step keeps the record, or is a refusal, which adds to it and changes nothing else. -/
theorem refusalsStay : Obligations.RefusalsStay := by
  intro s t r h
  obtain hkeep | ⟨q, p, d, rfl⟩ := step_refusals_eq_or_refuse h
  · rw [hkeep]
    exact ⟨id, fun hnew hr => absurd hr hnew⟩
  · refine ⟨fun hr => mem_refuse.mpr (.inl hr), fun _ _ => ?_⟩
    rw [refuse_pending, refuse_draws]
    exact refuse_eq ..

/-- Settles O55: in a well-formed instance the agent that acts goes on, in any other the step is a refusal. -/
theorem noStop : Obligations.NoStop := by
  intro s hs
  unfold State.goesOn
  cases hw : s.cfg.wellFormed with
  | true =>
    rw [step_wellFormed hw]
    exact hs.nextChoice.eventStep_next _
  | false => exact ⟨_, step_illFormed hw⟩

/-- Settles O4: the step is the refusal of an ill-formed instance (`step_illFormed`). -/
theorem illFormedInstanceRefused : Obligations.IllFormedInstanceRefused :=
  fun _ hw => ⟨_, step_illFormed hw, mem_refuse.mpr (.inr rfl), refuse_eq ..⟩

/-- Settles O13: the wait is a move of the PHE in each mode, and leaves the state as it is. -/
theorem waitsQuietly : Obligations.WaitsQuietly := by
  intro u rx hw hp hhost hseq
  cases hr : u.cfg.reqSource with
  | host => exact (PheMove.waitHost hp hr (hhost hr)).step_eq hw
  | seq => exact (PheMove.waitSeq hp hr (by simp [hseq hr])).step_eq hw

/-- Settles O18: such a PRINT is not well formed, so its meaning is a refusal in every phase (`exec_illFormed`). -/
theorem longPrintRefused : Obligations.LongPrintRefused := by
  intro s text hlen
  have hill : (Instr.print text).wellFormed = false := decide_eq_false (Nat.not_le_of_lt hlen)
  exact ⟨_, exec_illFormed hill s, mem_refuse.mpr (.inr rfl), refuse_eq ..⟩

end Sys2Proof.Machine
end

section
/-! The reset (70_reset_and_hazards section 1): the registers of R132 have their values at the start and after a
RESET, which keeps the wire, the published results, the instance and the recorded refusals. -/
namespace Sys2Proof.Machine

/-- A RESET goes on from every state, also during an Exchange (R131). -/
theorem step_rst {u : State} (hw : u.cfg.wellFormed = true) : step (u.withChoice .rst) = .next u.takeReset :=
  step_withChoice hw .rst

/-- Settles O30: State.reset is its own instance at the reset values, and a RESET ends in `takeReset`, which has them
from every state. -/
theorem resetValues : Obligations.ResetValues :=
  ⟨reset_hasResetValues Config.standard, fun u hw => ⟨u.takeReset, step_rst hw, takeReset_hasResetValues u⟩⟩

/-- Settles O31: `takeReset` writes the registers and counts the draw of those left unspecified, and nothing else. -/
theorem resetFrame : Obligations.ResetFrame := fun u hw =>
  ⟨u.takeReset, step_rst hw, takeReset_trace u, takeReset_cfg u, takeReset_refusals u, takeReset_pending u⟩

end Sys2Proof.Machine
end
